-- ==== Sys2Proof/Word.lean ====
section
/-! DEFINITION. The engine's word (R6, R8 of spec/00_scope.md).

Every datapath value is a 64-bit unsigned word; `+`, `-`, `^^^`, `<<<` and `>>>` of `BitVec 64` are
the operators R8 fixes: addition and subtraction wrap modulo 2^64, both shifts fill with zero, and
nothing signals a carry. Bit 0 is the least significant bit (R7). -/

namespace Sys2Proof

/-- A 64-bit unsigned word (R6 `W`, R8). -/
abbrev Word := BitVec 64

/-- A byte of the written spelling of a transaction word. -/
abbrev Byte := BitVec 8

/-- A 72-bit transaction word `T` (R54). -/
abbrev TxnWord := BitVec 72

end Sys2Proof
end

