-- ==== Sys2Proof/Syntax.lean ====
section
/-! DEFINITION. The instructions (spec/opcode_table.json, R53 and R61 of spec/30_encoding.md) and the host
program notation around them (R64). -/

namespace Sys2Proof

/-- One constructor per row of the opcode table. The fields are all of the row's bits, those the block
ignores among them, so that no bit of an encoding is lost (log 11). -/
inductive Instr where
  /-- REG_READ (R103): read the slot at offset `off`; `wdata` is ignored (R62). -/
  | regRead (off : BitVec 7) (wdata : Word)
  /-- REG_WRITE (R109): write `v` to offset `off`. A write to offset 0 is one of the four command rows. -/
  | regWrite (off : BitVec 7) (v : Word)
  /-- NOP (R91): command 00; `clr` is `C[2]`, `ignored` is `C[63:3]`. -/
  | nop (clr : Bool) (ignored : BitVec 61)
  /-- ENCRYPT (R92): command 01. -/
  | encrypt (clr : Bool) (ignored : BitVec 61)
  /-- DECRYPT (R93): command 10. -/
  | decrypt (clr : Bool) (ignored : BitVec 61)
  /-- CMD_RESERVED (R94): command 11. -/
  | cmdReserved (clr : Bool) (ignored : BitVec 61)
  deriving DecidableEq, Repr

/-- One operation of a host program (R64). -/
inductive HostOp where
  /-- Issue the transaction word `T`; the response of a read goes to host variable `dst`, where there is
  one. `rd SLOT -> hN` and `wr SLOT, VALUE` are both of this form. -/
  | issue (T : TxnWord) (dst : Option Nat)
  /-- An access at a platform address (R36), `bytes` wide: the bus form of a transaction. -/
  | access (write : Bool) (addr : Nat) (bytes : Nat) (wdata : Word) (dst : Option Nat)
  /-- `if hN[b] == v goto LABEL`: host control flow, not encoded; the label is a position in the program. -/
  | ifGoto (h : Nat) (b : Fin 64) (v : Bool) (label : Nat)
  /-- Test the `irq` line and branch where its level is `v`: how a host waits for `irq` (R49, R123). The
  notation of R64 has no word for it (log 18). -/
  | ifIrq (v : Bool) (label : Nat)
  deriving DecidableEq, Repr

/-- Whose transition comes next (R115). -/
inductive Turn where
  /-- The host's next operation. -/
  | host
  /-- The engine's step, where one is enabled. -/
  | engine
  /-- The environment asserts `rst` (R132). -/
  | rstAssert
  /-- The environment releases `rst`. -/
  | rstRelease
  deriving DecidableEq, Repr, Inhabited

end Sys2Proof
end

