-- ==== Sys2Proof/Config.lean ====
section
/-! DEFINITION. The parameters the spec leaves OPEN (R6 of spec/00_scope.md, spec/93 section 2), and the free
choice of who moves next (R115 of spec/42_register_access.md).

Each is an opaque constant without a body: nothing can evaluate it, so a statement holds whatever its
value is. No value of the datapath is open (spec/93 section 1): the choice of turn is the one free value. -/

namespace Sys2Proof.Config

/-- The bytes the platform leaves free below the window of engine `unit` (from the end of the window before it,
where there is one). OPEN; see `engineBase`. -/
opaque windowGap : Nat → Nat

/-- `ENGINE_BASE` of engine `unit`: the platform address at which its own register window stands (R36, R129). OPEN
(log 8): any layout of windows that do not overlap, the engines numbered by rising address (log 13). -/
def engineBase : Nat → Nat
  | 0 => windowGap 0
  | unit + 1 => engineBase unit + 0x80 + windowGap (unit + 1)

/-- The free value: whose transition comes next at the host and engine numbered `unit`, where no turn is listed and
`n` such choices have been made (R115, spec/93 section 2 "`any value`: free interleaving"; log 1). -/
opaque freeTurn (unit n : Nat) : Turn

/-- One less than `CYCLES_PER_ITER`; see `cyclesPerIter`. -/
opaque cyclesPerIterPred : Nat

/-- `CYCLES_PER_ITER`: clock cycles per engine step, an integer ≥ 1 (R142). OPEN; the model has no time
and no rule reads it (log 9). -/
def cyclesPerIter : Nat := cyclesPerIterPred + 1

/-- `BLOCK_BYTE_ORDER` for a block: how the platform reads a string of 16 bytes as `(v0, v1)` (R39).
OPEN, the platform's; the engine does not use it (log 9). -/
opaque blockOfBytes : Vector Byte 16 → Word × Word

/-- `BLOCK_BYTE_ORDER` for a key: how the platform reads a string of 32 bytes as `(k0, k1, k2, k3)` (R39).
OPEN, the platform's; the engine does not use it (log 9). -/
opaque keyOfBytes : Vector Byte 32 → Word × Word × Word × Word

end Sys2Proof.Config
end

