-- ==== Sys2Proof/WellFormed.lean ====
section
/-! DEFINITION. Which instructions stand for a transaction word (R61, R62), and which a host that follows
the spec's advice issues (R54, R58). -/

namespace Sys2Proof

/-- `i` is what some transaction word decodes to. The one check: a write to offset 0 is a command row,
never REG_WRITE (R61). -/
def Instr.wf : Instr → Bool
  | .regRead _ _ => true
  | .regWrite off _ => off != 0
  | .nop _ _ => true
  | .encrypt _ _ => true
  | .decrypt _ _ => true
  | .cmdReserved _ _ => true

/-- `i` is well formed and its ignored bits are 0: "must be 0 in a read" (R54), "Software should write
them as 0" (R58). The block runs the others just the same (R62). -/
def Instr.canonical : Instr → Bool
  | .regRead _ wdata => wdata == 0
  | .regWrite off _ => off != 0
  | .nop _ ignored => ignored == 0
  | .encrypt _ ignored => ignored == 0
  | .decrypt _ ignored => ignored == 0
  | .cmdReserved _ ignored => ignored == 0

end Sys2Proof
end

