-- ==== Sys2Proof/Decode.lean ====
section
/-! DEFINITION. Decoding and encoding of transaction words (R54–R63 of spec/30_encoding.md,
spec/opcode_table.json). -/

namespace Sys2Proof

/-- `K = T[71]`: true is a write (R54). -/
def txnWrite (T : TxnWord) : Bool := T.getLsbD 71

/-- `OFF = T[70:64]` (R54). -/
def txnOff (T : TxnWord) : BitVec 7 := T.extractLsb' 64 7

/-- `WDATA = T[63:0]` (R54). -/
def txnData (T : TxnWord) : Word := T.extractLsb' 0 64

/-- The transaction word `{K, OFF, WDATA}` (R54). -/
def txnWord (write : Bool) (off : BitVec 7) (v : Word) : TxnWord :=
  BitVec.ofBool write ++ off ++ v

/-- `CLR = C[2]` (R55, R57). -/
def cmdClr (C : Word) : Bool := C.getLsbD 2

/-- `C[1]`, the high bit of CMD (R55, R56). -/
def cmdHi (C : Word) : Bool := C.getLsbD 1

/-- `C[0]`, the low bit of CMD (R55, R56). -/
def cmdLo (C : Word) : Bool := C.getLsbD 0

/-- `C[63:3]`, ignored (R58). -/
def cmdIgnored (C : Word) : BitVec 61 := C.extractLsb' 3 61

/-- The command word with its three fields (R55); `hi` and `lo` are `C[1]` and `C[0]`. -/
def cmdWord (ignored : BitVec 61) (clr hi lo : Bool) : Word :=
  ignored ++ BitVec.ofBool clr ++ BitVec.ofBool hi ++ BitVec.ofBool lo

/-- The command row of a command word, by `CMD = C[1:0]` (R56). -/
def decodeCommand (C : Word) : Instr :=
  match cmdHi C, cmdLo C with
  | false, false => .nop (cmdClr C) (cmdIgnored C)
  | false, true => .encrypt (cmdClr C) (cmdIgnored C)
  | true, false => .decrypt (cmdClr C) (cmdIgnored C)
  | true, true => .cmdReserved (cmdClr C) (cmdIgnored C)

/-- The row of a transaction word (R61): first `K`, then, for a write at offset 0, `CMD`. Every word has
one (R62). -/
def decode (T : TxnWord) : Instr :=
  if txnWrite T then
    if txnOff T = 0 then decodeCommand (txnData T) else .regWrite (txnOff T) (txnData T)
  else .regRead (txnOff T) (txnData T)

/-- Why a string of bytes is no transaction (R63: every transaction is one 72-bit word). -/
inductive DecodeError where
  /-- Fewer than nine bytes. -/
  | tooShort
  /-- More than nine bytes. -/
  | tooLong
  deriving DecidableEq, Repr

/-- The word a string of nine bytes spells, most significant byte first, as R66 writes it (log 10: a
spelling only; the block itself has no byte order, R39). -/
def wordOfBytes : List Byte → Except DecodeError TxnWord
  | [b8, b7, b6, b5, b4, b3, b2, b1, b0] => .ok (b8 ++ b7 ++ b6 ++ b5 ++ b4 ++ b3 ++ b2 ++ b1 ++ b0)
  | bs => .error (if bs.length < 9 then .tooShort else .tooLong)

/-- Decode a string of bytes: total, rejecting by name every string that is not nine bytes long. -/
def decodeBytes (bs : List Byte) : Except DecodeError Instr := (wordOfBytes bs).map decode

/-- Byte `n` of a transaction word, 0 the least significant. -/
def txnByte (T : TxnWord) (n : Nat) : Byte := T.extractLsb' (8 * n) 8

/-- The nine bytes of a transaction word, most significant first. -/
def bytesOfWord (T : TxnWord) : List Byte :=
  [txnByte T 8, txnByte T 7, txnByte T 6, txnByte T 5, txnByte T 4, txnByte T 3, txnByte T 2,
    txnByte T 1, txnByte T 0]

/-- The transaction word of an instruction, field by field from R54–R56. -/
def encode : Instr → TxnWord
  | .regRead off wdata => txnWord false off wdata
  | .regWrite off v => txnWord true off v
  | .nop clr ignored => txnWord true 0 (cmdWord ignored clr false false)
  | .encrypt clr ignored => txnWord true 0 (cmdWord ignored clr false true)
  | .decrypt clr ignored => txnWord true 0 (cmdWord ignored clr true false)
  | .cmdReserved clr ignored => txnWord true 0 (cmdWord ignored clr true true)

/-- A row of spec/opcode_table.json: a word belongs to it when the masked bits are `value`. -/
structure OpcodeRow where
  mnemonic : String
  mask : TxnWord
  value : TxnWord
  deriving DecidableEq, Repr

/-- The bits of `T` a row looks at are the row's. -/
def OpcodeRow.matchesWord (r : OpcodeRow) (T : TxnWord) : Bool := T &&& r.mask == r.value

def rowRegRead : OpcodeRow := ⟨"REG_READ", 0x800000000000000000, 0x000000000000000000⟩
def rowRegWrite : OpcodeRow := ⟨"REG_WRITE", 0x800000000000000000, 0x800000000000000000⟩
def rowNop : OpcodeRow := ⟨"NOP", 0xFF0000000000000003, 0x800000000000000000⟩
def rowEncrypt : OpcodeRow := ⟨"ENCRYPT", 0xFF0000000000000003, 0x800000000000000001⟩
def rowDecrypt : OpcodeRow := ⟨"DECRYPT", 0xFF0000000000000003, 0x800000000000000002⟩
def rowCmdReserved : OpcodeRow := ⟨"CMD_RESERVED", 0xFF0000000000000003, 0x800000000000000003⟩

/-- spec/opcode_table.json, row by row. -/
def opcodeTable : List OpcodeRow :=
  [rowRegRead, rowRegWrite, rowNop, rowEncrypt, rowDecrypt, rowCmdReserved]

/-- The row an instruction is of. -/
def Instr.row : Instr → OpcodeRow
  | .regRead _ _ => rowRegRead
  | .regWrite _ _ => rowRegWrite
  | .nop _ _ => rowNop
  | .encrypt _ _ => rowEncrypt
  | .decrypt _ _ => rowDecrypt
  | .cmdReserved _ _ => rowCmdReserved

/-- The transaction word whose low `nbits` bits are those of `w` and whose other bits are 0. -/
def tableWord (nbits w : Nat) : TxnWord := BitVec.ofNat 72 (w % 2 ^ nbits)

/-- What the decoder reads from an instruction whose bits are `w`, numbered as the opcode table numbers
them (bit 0 the least significant bit of `T`); no transaction is longer than 72 bits (R63). -/
def decodeTableWord (nbits w : Nat) : Option Instr :=
  if nbits ≤ 72 then (decodeBytes (bytesOfWord (tableWord nbits w))).toOption else none

end Sys2Proof
end

