-- ==== Sys2Proof/Machine/State.lean ====
section
/-! DEFINITION. The machine's state: the engine's record R14 (spec/10_state.md) and, as R115
(spec/42_register_access.md) asks, what stands around it: the reset pin, the response lines, the host
program with its variables, and the choice of who moves next. -/

namespace Sys2Proof.Machine

/-- `MODE` (R29): 0 = encrypt, 1 = decrypt. -/
inductive Mode where
  | encrypt
  | decrypt
  deriving DecidableEq, Repr

/-- The complete state of one engine (R14). -/
structure Engine where
  /-- DATA0 (R17). -/
  data0 : Word
  /-- DATA1 (R18). -/
  data1 : Word
  /-- KEY0 (R19). -/
  key0 : Word
  /-- KEY1 (R19). -/
  key1 : Word
  /-- KEY2 (R19). -/
  key2 : Word
  /-- KEY3 (R19). -/
  key3 : Word
  /-- STATUS.BUSY (R21). -/
  busy : Bool
  /-- STATUS.DONE (R22). -/
  done : Bool
  /-- STATUS.ERR (R23). -/
  err : Bool
  /-- MODE, read as STATUS.MODE (R24, R29). -/
  mode : Mode
  /-- Y (R26). -/
  y : Word
  /-- Z (R26). -/
  z : Word
  /-- SUM (R27). -/
  sum : Word
  /-- ITER, seven bits (R28). -/
  iter : BitVec 7
  deriving DecidableEq, Repr

/-- The system's state (R115). `schedule`, `freeTurns` and `unit` are the model's own fields (log 1, log 13). -/
structure State where
  /-- The engine (R14). -/
  eng : Engine
  /-- The level of the reset pin (R132). -/
  rst : Bool
  /-- RDATA of the last host transaction; none where that was a write (R54, log 5). -/
  rdata : Option Word
  /-- The host program (R64, R115). -/
  program : List HostOp
  /-- The position of the host program's next operation. -/
  hostPc : Nat
  /-- The host variables that are not 0, by rising number (R64, log 6). -/
  vars : List (Nat × Word)
  /-- The turns that are fixed beforehand, first turn first (R115, log 1). -/
  schedule : List Turn
  /-- How many turns have been chosen freely, no turn being listed (R115, log 1). -/
  freeTurns : Nat
  /-- Which of a platform's engines this is: it says where its window stands (R129, log 13). Nothing writes it. -/
  unit : Nat
  deriving DecidableEq, Repr

/-- There is no fault: the block has no fault mechanism, and an engine is never stuck (spec/93 section 2;
R118, R120; log 17). -/
inductive Fault where
  deriving DecidableEq, Repr

/-- Why the model gives no next state. No instruction of the opcode table is refused. -/
inductive Refusal where
  /-- Raised by exec's arm of an instruction that has no meaning yet (none). Safe. -/
  | notModelled (mnemonic : String)
  /-- Raised by a host access at a platform address outside the window, which this block does not decode:
  what the host sees there is the platform's (R41, D10). Safe: nothing is claimed of it. -/
  | outsideWindow
  /-- Raised by a host access in the window that is not 8 bytes wide, which is no transaction of this
  block (R38, D6). Safe: nothing is claimed of it. -/
  | notWholeWord
  deriving DecidableEq, Repr

/-- The engine after `Reset()` (R132): every register 0, idle, MODE encrypt. -/
def Engine.reset : Engine where
  data0 := 0
  data1 := 0
  key0 := 0
  key1 := 0
  key2 := 0
  key3 := 0
  busy := false
  done := false
  err := false
  mode := .encrypt
  y := 0
  z := 0
  sum := 0
  iter := 0

/-- The machine right after reset: the engine as R132 leaves it. The fields around the engine have no
reset value in the spec: log 7. -/
def State.reset : State where
  eng := Engine.reset
  rst := false
  rdata := none
  program := []
  hostPc := 0
  vars := []
  schedule := []
  freeTurns := 0
  unit := 0

end Sys2Proof.Machine
end

