-- ==== Sys2Proof/Machine/Datapath.lean ====
section
/-! DEFINITION. The Feistel datapath (spec/40_feistel_datapath.md): pure functions on words. -/

namespace Sys2Proof.Machine

/-- DELTA (R30, R70). -/
def delta : Word := 0x0FD258F8F3210C68

/-- SUM_DEC_INIT, 64 times DELTA modulo 2^64 (R71). -/
def sumDecInit : Word := 0xF4963E3CC8431A00

/-- Iterations per operation, `N_ITER` (R6, R88). -/
def nIter : Nat := 64

/-- The left shift by 4 (R68). -/
def shl4 (x : Word) : Word := x <<< 4

/-- The logical right shift by 5 (R69). -/
def shr5 (x : Word) : Word := x >>> 5

/-- The mixing function F (R72). -/
def mix (x s ka kb : Word) : Word := (shl4 x + ka) ^^^ (x + s) ^^^ (shr5 x + kb)

/-- E-y: the new `y` (R73). -/
def encY (y z s k0 k1 : Word) : Word := y + mix z s k0 k1

/-- E-z: the new `z`, from the new `y` (R74). -/
def encZ (y z s k2 k3 : Word) : Word := z + mix y s k2 k3

/-- D-z: the new `z`, from the old `y` (R76). -/
def decZ (y z s k2 k3 : Word) : Word := z - mix y s k2 k3

/-- D-y: the new `y`, from the new `z` (R77). -/
def decY (y z s k0 k1 : Word) : Word := y - mix z s k0 k1

/-- The key `(k0, k1, k2, k3)` (R12). -/
structure Key where
  k0 : Word
  k1 : Word
  k2 : Word
  k3 : Word
  deriving DecidableEq, Repr

/-- The working state `(y, z, sum)` of an operation (R75, R78). -/
structure Working where
  y : Word
  z : Word
  sum : Word
  deriving DecidableEq, Repr

/-- ENC_ITER: SUM first, then E-y, then E-z from the new `y` (R75, R87). -/
def encIter (k : Key) (w : Working) : Working :=
  let sum := w.sum + delta
  let y := encY w.y w.z sum k.k0 k.k1
  let z := encZ y w.z sum k.k2 k.k3
  ⟨y, z, sum⟩

/-- DEC_ITER: D-z from the old `y`, then D-y from the new `z`, then SUM (R78, R87). -/
def decIter (k : Key) (w : Working) : Working :=
  let z := decZ w.y w.z w.sum k.k2 k.k3
  let y := decY w.y z w.sum k.k0 k.k1
  ⟨y, z, w.sum - delta⟩

/-- The iteration a mode performs (R97). -/
def iterOnce (m : Mode) (k : Key) (w : Working) : Working :=
  match m with
  | .encrypt => encIter k w
  | .decrypt => decIter k w

/-- `n` iterations, one after the other. -/
def iterMany (m : Mode) (k : Key) : Nat → Working → Working
  | 0, w => w
  | n + 1, w => iterOnce m k (iterMany m k n w)

/-- SUM at the start of an operation: 0 to encrypt, SUM_DEC_INIT to decrypt (R79, R80). -/
def sumInit (m : Mode) : Word :=
  match m with
  | .encrypt => 0
  | .decrypt => sumDecInit

/-- The whole operation of a mode on a block: exactly 64 iterations (R79, R80). -/
def transform (m : Mode) (k : Key) (p : Word × Word) : Word × Word :=
  let w := iterMany m k nIter ⟨p.1, p.2, sumInit m⟩
  (w.y, w.z)

/-- E(K, P) (R79). -/
def encryptBlock (k : Key) (p : Word × Word) : Word × Word := transform .encrypt k p

/-- D(K, C) (R80). -/
def decryptBlock (k : Key) (p : Word × Word) : Word × Word := transform .decrypt k p

end Sys2Proof.Machine
end

