-- ==== Sys2Proof/Machine/Operands.lean ====
section
/-! DEFINITION. The operands of transactions and operations: the slot an offset selects (R37) and the
register operands of the engine (R59). -/

namespace Sys2Proof.Machine

/-- The slots of the register window (R37). -/
inductive Slot where
  | ctrl
  | status
  | data0
  | data1
  | key0
  | key1
  | key2
  | key3
  /-- Slots 8 to 15: `n` is the slot number less 8 (R32). -/
  | reserved (n : BitVec 3)
  deriving DecidableEq, Repr

/-- An offset is aligned when `off[2:0] = 0` (R37, R40). -/
def offAligned (off : BitVec 7) : Bool := off.extractLsb' 0 3 == 0

/-- The slot numbered `n` (R37). -/
def slotNumbered (n : BitVec 4) : Slot :=
  match n.toNat with
  | 0 => .ctrl
  | 1 => .status
  | 2 => .data0
  | 3 => .data1
  | 4 => .key0
  | 5 => .key1
  | 6 => .key2
  | 7 => .key3
  | _ => .reserved (n.extractLsb' 0 3)

/-- The slot an offset selects, `off[6:3]` (R37). -/
def offSlot (off : BitVec 7) : Slot := slotNumbered (off.extractLsb' 3 4)

/-- The offset of a slot (R37). -/
def Slot.offset : Slot → BitVec 7
  | .ctrl => 0x00
  | .status => 0x08
  | .data0 => 0x10
  | .data1 => 0x18
  | .key0 => 0x20
  | .key1 => 0x28
  | .key2 => 0x30
  | .key3 => 0x38
  | .reserved n => (1#1 ++ n ++ 0#3)

/-- The key operand, `(KEY0, KEY1, KEY2, KEY3)` (R59, R97). -/
def Engine.key (e : Engine) : Key := ⟨e.key0, e.key1, e.key2, e.key3⟩

/-- The block operand, `(DATA0, DATA1)` (R59). -/
def Engine.block (e : Engine) : Word × Word := (e.data0, e.data1)

/-- The working registers `(Y, Z, SUM)` (R97). -/
def Engine.working (e : Engine) : Working := ⟨e.y, e.z, e.sum⟩

/-- The engine with `(Y, Z, SUM)` replaced (R97). -/
def Engine.setWorking (e : Engine) (w : Working) : Engine := { e with y := w.y, z := w.z, sum := w.sum }

end Sys2Proof.Machine
end

