-- ==== Sys2Proof/Machine/Flags.lean ====
section
/-! DEFINITION. The status flags: how they are read (R60, R31) and the two operations that change ERR
(R121, R90). -/

namespace Sys2Proof.Machine

/-- The bit MODE reads as (R24, R29). -/
def Mode.bit : Mode → Bool
  | .encrypt => false
  | .decrypt => true

/-- The STATUS word (R60): `{MODE, ERR, DONE, BUSY}`, zero-extended; bits 63:4 are hardwired 0 (R25). -/
def Engine.statusWord (e : Engine) : Word :=
  (BitVec.ofBool e.mode.bit ++ BitVec.ofBool e.err ++ BitVec.ofBool e.done ++ BitVec.ofBool e.busy).setWidth 64

/-- The interrupt output, equal to DONE in every state (R31, R123). -/
def Engine.irq (e : Engine) : Bool := e.done

/-- `set_err()` (R121). It is all the block does about an error: no trap, no saved state (R120). -/
def Engine.setErr (e : Engine) : Engine := { e with err := true }

/-- CLR (R90): clears DONE and ERR. -/
def Engine.clearFlags (e : Engine) : Engine := { e with done := false, err := false }

end Sys2Proof.Machine
end

