-- ==== Sys2Proof/Machine/Ops.lean ====
section
/-! DEFINITION. The engine's transitions, from the pseudocode of spec/41_engine_commands.md and
spec/42_register_access.md: commands, the engine's own step, and the register window's reads and
writes. The block takes no exception (R120): an error is `Engine.setErr`, and there is no return. -/

namespace Sys2Proof.Machine

/-- `Start(MODE)` (R92, R93). ERR is left alone (R102). -/
def Engine.start (m : Mode) (e : Engine) : Engine :=
  { e with mode := m, y := e.data0, z := e.data1, sum := sumInit m, iter := 0, done := false, busy := true }

/-- A write that is accepted only while idle: while BUSY it changes ERR and nothing else (E1; R95, R112,
R113). -/
def Engine.whenIdle (f : Engine → Engine) (e : Engine) : Engine :=
  if e.busy then e.setErr else f e

/-- A command word that is not refused: CLR first, then the command (R89). -/
def Engine.command (clr : Bool) (f : Engine → Engine) (e : Engine) : Engine :=
  f (if clr then e.clearFlags else e)

/-- A CTRL write with its CLR bit and what its CMD does (R89, R90, R95). -/
def Engine.ctrl (clr : Bool) (f : Engine → Engine) : Engine → Engine :=
  Engine.whenIdle (Engine.command clr f)

/-- What CMD does once the write is accepted (R89, R91–R94); `hi` and `lo` are `C[1]` and `C[0]`. -/
def Engine.cmdEffect (hi lo : Bool) : Engine → Engine :=
  match hi, lo with
  | false, false => id
  | false, true => Engine.start .encrypt
  | true, false => Engine.start .decrypt
  | true, true => Engine.setErr

/-- `CtrlWrite(C)` (R89); `C[63:3]` are not read (R58). -/
def Engine.ctrlWrite (C : Word) : Engine → Engine :=
  Engine.ctrl (cmdClr C) (Engine.cmdEffect (cmdHi C) (cmdLo C))

/-- `Complete()` (R98). -/
def Engine.complete (e : Engine) : Engine :=
  { e with data0 := e.y, data1 := e.z, iter := 0, busy := false, done := true }

/-- The iteration of an engine step: the working registers and ITER (R97). -/
def Engine.iterate (e : Engine) : Engine :=
  { e.setWorking (iterOnce e.mode e.key e.working) with iter := e.iter + 1 }

/-- `EngineStep()` (R97), with the completion in the 64th iteration (R98). -/
def Engine.engineStep (e : Engine) : Engine :=
  let e' := e.iterate
  if e'.iter = 64 then e'.complete else e'

/-- The engine's turn: its one step while BUSY, none while idle (R96, R97). -/
def Engine.turn (e : Engine) : Engine := if e.busy then e.engineStep else e

/-- `ReadData(r)`: the register while idle, 0 while busy (R106). -/
def Engine.readData (e : Engine) (r : Word) : Word := if e.busy then 0 else r

/-- What an aligned read of a slot answers (R103–R108). -/
def Engine.readSlot (e : Engine) : Slot → Word
  | .ctrl => 0
  | .status => e.statusWord
  | .data0 => e.readData e.data0
  | .data1 => e.readData e.data1
  | .key0 => 0
  | .key1 => 0
  | .key2 => 0
  | .key3 => 0
  | .reserved _ => 0

/-- `RegRead(off)` (R103): a misaligned read answers 0 (R108). -/
def Engine.regRead (e : Engine) (off : BitVec 7) : Word :=
  if offAligned off then e.readSlot (offSlot off) else 0

/-- What an aligned write of `v` to a slot does (R109–R114). -/
def Engine.writeSlot (v : Word) : Slot → Engine → Engine
  | .ctrl => Engine.ctrlWrite v
  | .status => Engine.setErr
  | .data0 => Engine.whenIdle fun e => { e with data0 := v }
  | .data1 => Engine.whenIdle fun e => { e with data1 := v }
  | .key0 => Engine.whenIdle fun e => { e with key0 := v }
  | .key1 => Engine.whenIdle fun e => { e with key1 := v }
  | .key2 => Engine.whenIdle fun e => { e with key2 := v }
  | .key3 => Engine.whenIdle fun e => { e with key3 := v }
  | .reserved _ => Engine.setErr

/-- `RegWrite(off, v)` (R109): the misaligned check comes before the slot (R114, R124). -/
def Engine.regWrite (off : BitVec 7) (v : Word) (e : Engine) : Engine :=
  if offAligned off then Engine.writeSlot v (offSlot off) e else e.setErr

/-- The state with the engine's transition made. -/
def State.onEngine (f : Engine → Engine) (s : State) : State := { s with eng := f s.eng }

/-- The state with a read's response on the response lines (R54, log 5). -/
def State.answer (v : Word) (s : State) : State := { s with rdata := some v }

end Sys2Proof.Machine
end

