-- ==== Sys2Proof/Machine/Access.lean ====
section
/-! DEFINITION. The meanings of the two transaction rows (spec/42_register_access.md). -/

namespace Sys2Proof.Machine

/-- REG_READ (R103): the response, and nothing else; `WDATA` is ignored (R62). -/
def execRegRead (off : BitVec 7) (_wdata : Word) (s : State) : Host.Outcome State Fault Refusal :=
  .next (s.answer (s.eng.regRead off))

/-- REG_WRITE (R109). At offset 0 it is `CtrlWrite`, as R109 says, though no word decodes to that
(log 15). -/
def execRegWrite (off : BitVec 7) (v : Word) (s : State) : Host.Outcome State Fault Refusal :=
  .next (s.onEngine (Engine.regWrite off v))

end Sys2Proof.Machine
end

