-- ==== Sys2Proof/Machine/Command.lean ====
section
/-! DEFINITION. The meanings of the four command rows (spec/41_engine_commands.md). `C[63:3]` are not read
(R58). -/

namespace Sys2Proof.Machine

/-- NOP (R91): no change beyond CLR; refused with ERR while busy (R95). -/
def execNop (clr : Bool) (_ignored : BitVec 61) (s : State) : Host.Outcome State Fault Refusal :=
  .next (s.onEngine (Engine.ctrl clr id))

/-- ENCRYPT (R92): starts an encryption; refused with ERR while busy (R95). -/
def execEncrypt (clr : Bool) (_ignored : BitVec 61) (s : State) : Host.Outcome State Fault Refusal :=
  .next (s.onEngine (Engine.ctrl clr (Engine.start .encrypt)))

/-- DECRYPT (R93): starts a decryption; refused with ERR while busy (R95). -/
def execDecrypt (clr : Bool) (_ignored : BitVec 61) (s : State) : Host.Outcome State Fault Refusal :=
  .next (s.onEngine (Engine.ctrl clr (Engine.start .decrypt)))

/-- CMD_RESERVED (R94): sets ERR, after CLR, and starts nothing (E2); while busy it is E1 (R95). -/
def execCmdReserved (clr : Bool) (_ignored : BitVec 61) (s : State) : Host.Outcome State Fault Refusal :=
  .next (s.onEngine (Engine.ctrl clr Engine.setErr))

end Sys2Proof.Machine
end

