-- ==== Sys2Proof/Machine/Dispatch.lean ====
section
/-! DEFINITION. One arm per row of spec/opcode_table.json. -/

namespace Sys2Proof.Machine

/-- The meaning of an instruction, as one atomic transition (R11). -/
def exec (i : Instr) (s : State) : Host.Outcome State Fault Refusal :=
  match i with
  | .regRead off wdata => Sys2Proof.Machine.execRegRead off wdata s
  | .regWrite off v => Sys2Proof.Machine.execRegWrite off v s
  | .nop clr ignored => Sys2Proof.Machine.execNop clr ignored s
  | .encrypt clr ignored => Sys2Proof.Machine.execEncrypt clr ignored s
  | .decrypt clr ignored => Sys2Proof.Machine.execDecrypt clr ignored s
  | .cmdReserved clr ignored => Sys2Proof.Machine.execCmdReserved clr ignored s

end Sys2Proof.Machine
end

