-- ==== Sys2Proof/Machine/HostAgent.lean ====
section
/-! DEFINITION. The host agent (R3, R115): its variables, its operations in the notation of R64 and R65
(spec/30_encoding.md), and the window a platform address reaches (R36). Host control flow belongs to the
host, not to the block (R16, R64); log 6. -/

namespace Sys2Proof.Machine

/-- The value of host variable `h`; one that is not listed is 0. -/
def getVar : List (Nat × Word) → Nat → Word
  | [], _ => 0
  | (k, v) :: rest, h => if h = k then v else getVar rest h

/-- Set host variable `h`, keeping the list's canonical form: rising numbers, no value 0. -/
def setVar : List (Nat × Word) → Nat → Word → List (Nat × Word)
  | [], h, w => if w = 0 then [] else [(h, w)]
  | (k, v) :: rest, h, w =>
    if h < k then (if w = 0 then (k, v) :: rest else (h, w) :: (k, v) :: rest)
    else if h = k then (if w = 0 then rest else (h, w) :: rest)
    else (k, v) :: setVar rest h w

/-- The canonical form from number `lo` on. -/
def varsFrom (lo : Nat) : List (Nat × Word) → Bool
  | [] => true
  | (k, v) :: rest => decide (lo ≤ k) && v != 0 && varsFrom (k + 1) rest

/-- The host variables' list is in canonical form, so that equal variables are equal data. -/
def varsWf (vs : List (Nat × Word)) : Bool := varsFrom 0 vs

/-- `BusRead`/`BusWrite` at a platform address (R9, R36): the transaction word it is in the window of engine
`unit`, or why it is no transaction of that engine (R38, R41). A read carries WDATA 0 (R54). -/
def busWord (unit : Nat) (write : Bool) (addr bytes : Nat) (wdata : Word) : Except Refusal TxnWord :=
  if Config.engineBase unit ≤ addr ∧ addr < Config.engineBase unit + 0x80 then
    if bytes = 8 then
      .ok (txnWord write (BitVec.ofNat 7 (addr - Config.engineBase unit)) (if write then wdata else 0))
    else .error .notWholeWord
  else .error .outsideWindow

/-- The host's side of a finished transaction: the response, where there is one and it is wanted, goes to
its host variable, and the program moves on (R64, R115). -/
def State.retire (dst : Option Nat) (s : State) : State :=
  { s with
    hostPc := s.hostPc + 1
    vars := match dst, s.rdata with
      | some h, some v => setVar s.vars h v
      | _, _ => s.vars }

/-- A function on next states, applied to an outcome. -/
def mapNext (f : State → State) : Host.Outcome State Fault Refusal → Host.Outcome State Fault Refusal
  | .next s => .next (f s)
  | .fault r => .fault r
  | .refused r => .refused r

/-- Issue one transaction: the response lines are cleared, the decoded row runs, the host moves on. -/
def issueTxn (T : TxnWord) (dst : Option Nat) (s : State) : Host.Outcome State Fault Refusal :=
  mapNext (State.retire dst) (exec (decode T) { s with rdata := none })

/-- `if hN[b] == v goto LABEL` (R64). -/
def hostBranch (h : Nat) (b : Fin 64) (v : Bool) (label : Nat) (s : State) : State :=
  { s with hostPc := if (getVar s.vars h).getLsbD b = v then label else s.hostPc + 1 }

/-- Test the `irq` line and branch (R49, R123; log 18). -/
def hostIrqBranch (v : Bool) (label : Nat) (s : State) : State :=
  { s with hostPc := if s.eng.irq = v then label else s.hostPc + 1 }

/-- One operation of the host. -/
def hostOp (op : HostOp) (s : State) : Host.Outcome State Fault Refusal :=
  match op with
  | .issue T dst => issueTxn T dst s
  | .access write addr bytes wdata dst =>
    match busWord s.unit write addr bytes wdata with
    | .ok T => issueTxn T dst s
    | .error r => .refused r
  | .ifGoto h b v label => .next (hostBranch h b v label s)
  | .ifIrq v label => .next (hostIrqBranch v label s)

/-- The host's turn: its program's next operation; nothing once the program has ended (R115, log 3). -/
def hostTurn (s : State) : Host.Outcome State Fault Refusal :=
  match s.program[s.hostPc]? with
  | some op => hostOp op s
  | none => .next s

/-- The state in which the host's next operation issues the transaction word `T`. -/
def State.placeTxn (T : TxnWord) (s : State) : State :=
  let pc := min s.hostPc s.program.length
  { s with program := s.program.take pc ++ .issue T none :: s.program.drop (pc + 1), hostPc := pc }

/-- `rd SLOT -> hN` (R64). -/
def opRd (slot : Slot) (h : Nat) : HostOp := .issue (txnWord false slot.offset 0) (some h)

/-- `wr SLOT, VALUE` (R64). -/
def opWr (slot : Slot) (v : Word) : HostOp := .issue (txnWord true slot.offset v) none

/-- `rd @0xNN -> hN` (R64). -/
def opRdAt (off : BitVec 7) (h : Nat) : HostOp := .issue (txnWord false off 0) (some h)

/-- `wr @0xNN, VALUE` (R64). -/
def opWrAt (off : BitVec 7) (v : Word) : HostOp := .issue (txnWord true off v) none

/-- `start.enc` (R65). -/
def opStartEnc : List HostOp := [opWr .ctrl 0x1]

/-- `start.dec` (R65). -/
def opStartDec : List HostOp := [opWr .ctrl 0x2]

/-- `clr` (R65). -/
def opClr : List HostOp := [opWr .ctrl 0x4]

/-- `setkey a, b, c, d` (R65). -/
def opSetKey (a b c d : Word) : List HostOp := [opWr .key0 a, opWr .key1 b, opWr .key2 c, opWr .key3 d]

/-- `setblk a, b` (R65). -/
def opSetBlk (a b : Word) : List HostOp := [opWr .data0 a, opWr .data1 b]

/-- `wait -> hN`, standing at position `pos` of the program (R65): poll STATUS until BUSY = 0. -/
def opWait (pos h : Nat) : List HostOp := [opRd .status h, .ifGoto h 0 true pos]

/-- Wait for `irq`, standing at position `pos` of the program (R49): stay until the line is raised. -/
def opWaitIrq (pos : Nat) : List HostOp := [.ifIrq false pos]

/-- `getblk -> hA, hB` (R65). -/
def opGetBlk (a b : Nat) : List HostOp := [opRd .data0 a, opRd .data1 b]

end Sys2Proof.Machine
end

