-- ==== Sys2Proof/Machine/System.lean ====
section
/-! DEFINITION. The step relation R115 (spec/42_register_access.md) as one function: the listed turns, and then a
free choice, say whose turn it is, and reset takes precedence (R132). -/

namespace Sys2Proof.Machine

/-- While `rst` is asserted the engine stays at its reset values (R132). -/
def State.holdReset (s : State) : State := if s.rst then { s with eng := Engine.reset } else s

/-- Whose turn it is: the first turn that is listed, and a free value once none is (R115, log 1). -/
def State.turn (s : State) : Turn :=
  match s.schedule with
  | t :: _ => t
  | [] => Config.freeTurn s.unit s.freeTurns

/-- The state with the turn taken: off the schedule, or the free choice made. -/
def State.takeTurn (s : State) : State :=
  { s with
    schedule := s.schedule.tail
    freeTurns := if s.schedule.isEmpty then s.freeTurns + 1 else s.freeTurns }

/-- The engine's turn (R96, R97). -/
def engineTurn (s : State) : State := s.onEngine Engine.turn

/-- `rst` is asserted: `Reset()`, one atomic transition (R132). The host goes on by itself (log 4). -/
def assertReset (s : State) : State := { s with rst := true, eng := Engine.reset }

/-- `rst` is released; nothing else changes. -/
def releaseReset (s : State) : State := { s with rst := false }

/-- One turn's transition (R115). -/
def performTurn (t : Turn) (s : State) : Host.Outcome State Fault Refusal :=
  match t with
  | .host => hostTurn s
  | .engine => .next (engineTurn s)
  | .rstAssert => .next (assertReset s)
  | .rstRelease => .next (releaseReset s)

/-- One step of the system (R115). -/
def systemStep (s : State) : Host.Outcome State Fault Refusal :=
  mapNext State.holdReset (performTurn s.holdReset.turn s.holdReset.takeTurn)

/-- The state whose very next step is the host issuing `T`: the pin released, the host's turn first, `T`
its next operation (log 7). -/
def State.withTxn (T : TxnWord) (s : State) : State :=
  { s.placeTxn T with rst := false, schedule := .host :: s.schedule }

end Sys2Proof.Machine
end

