-- ==== Sys2Proof/Machine/Step.lean ====
section
/-! DEFINITION. One step of the machine, and where a step finds its next instruction. -/

namespace Sys2Proof.Machine

/-- One step (R115). -/
def step (s : State) : Host.Outcome State Fault Refusal := systemStep s

/-- `s` with the transaction whose bits are `w` as the one its next step issues. -/
def State.withFetchWord (s : State) (nbits w : Nat) : State := s.withTxn (tableWord nbits w)

end Sys2Proof.Machine
end

