-- ==== Sys2Proof/Machine/Platform.lean ====
section
/-! DEFINITION. Several engines on one platform (R52 of spec/20_memory.md, R129 of spec/60_exceptions.md): a
list of machines, one of which steps at a time; they share nothing, and each has its own window (log 13). -/

namespace Sys2Proof.Machine

/-- The machines of a platform, by their place. -/
abbrev Platform := List State

/-- The machine at each place answers for that place's window. -/
def Platform.wf (p : Platform) : Prop := ∀ (n : Nat) (s : State), p[n]? = some s → s.unit = n

/-- One step of the machine at place `n`; nothing where there is none. -/
def Platform.stepAt (n : Nat) (p : Platform) : Host.Outcome Platform Fault Refusal :=
  match p[n]? with
  | none => .next p
  | some s =>
    match systemStep s with
    | .next t => .next (p.set n t)
    | .fault r => .fault r
    | .refused r => .refused r

end Sys2Proof.Machine
end

