-- ==== Sys2Proof/Safety.lean ====
section
/-! DEFINITION. What claims are stated in terms of: the invariants of R33 (spec/10_state.md), what an
operation in flight has computed so far (R97, R99), when a run is over (R117), and fairness (R116). -/

namespace Sys2Proof.Machine

/-- The invariants of R33 and R28. -/
structure Engine.Consistent (e : Engine) : Prop where
  idle_iter : e.busy = false → e.iter = 0
  busy_iter : e.busy = true → e.iter.toNat ≤ 63
  done_idle : e.done = true → e.busy = false
  sum_encrypt : e.busy = true → e.mode = .encrypt → e.sum = BitVec.ofNat 64 e.iter.toNat * delta
  sum_decrypt : e.busy = true → e.mode = .decrypt → e.sum = BitVec.ofNat 64 (64 - e.iter.toNat) * delta

/-- The working registers of an operation in flight hold what ITER iterations make of the block that
still stands in DATA0 and DATA1 (R92, R93, R97). -/
def Engine.OnTrack (e : Engine) : Prop :=
  e.busy = true → e.iter.toNat ≤ 63 ∧
    e.working = iterMany e.mode e.key e.iter.toNat ⟨e.data0, e.data1, sumInit e.mode⟩

/-- The machine's invariant: R33, the computation in flight, the reset pin's hold (R132), and the canonical
form of the host variables. -/
structure State.Inv (s : State) : Prop where
  consistent : s.eng.Consistent
  onTrack : s.eng.OnTrack
  held : s.rst = true → s.eng = Engine.reset
  vars : varsWf s.vars = true

/-- A run is over: the host program has no next operation and BUSY = 0 (R117). R117 speaks of the next transaction:
that a branch still to be taken, such as the one that ends `wait`, keeps a run from being over, though no transaction
may follow it, is the model's choice (DESIGN CHOICE, log 19). -/
def State.finished (s : State) : Bool := decide (s.program.length ≤ s.hostPc) && !s.eng.busy

/-- `n` steps of the machine, as the host runs it. -/
abbrev runSteps (n : Nat) (s : State) : Host.Outcome State Fault Refusal := Host.Core.run Sys2Proof.core n s

/-- `n` steps of the machine in which turn `k` is `turns k`: a run of R115 with its whole, endless choice of turns
given, whatever the schedule says. -/
def runTurns (turns : Nat → Turn) : Nat → State → Host.Outcome State Fault Refusal
  | 0, s => .next s
  | n + 1, s =>
    match runTurns turns n s with
    | .next t => step { t with schedule := [turns n] }
    | .fault r => .fault r
    | .refused r => .refused r

/-- Weak fairness of the engine (R116): where from turn `n` on its step stays enabled, it is eventually taken. -/
def WeaklyFair (turns : Nat → Turn) (s : State) : Prop :=
  ∀ n, (∀ m, n ≤ m → ∃ t, runTurns turns m s = .next t ∧ t.eng.busy = true) → ∃ m, n ≤ m ∧ turns m = .engine

/-- The turn is a step of R115: the host's, where its program goes on; the engine's, enabled iff BUSY = 1; a reset;
or the pin's release. Every other turn is the model's own and changes nothing (log 3). -/
def State.enabled (s : State) : Turn → Bool
  | .host => decide (s.hostPc < s.program.length)
  | .engine => s.eng.busy
  | .rstAssert => true
  | .rstRelease => s.rst

/-- The run goes on with steps of R115 until it is over (R117): it does not stand still for ever on turns with nothing
to do, which are no steps of the hardware (R96, D33; log 3). -/
def KeepsStepping (turns : Nat → Turn) (s : State) : Prop :=
  ∀ n t, runTurns turns n s = .next t → t.finished = false →
    ∃ m u, n ≤ m ∧ runTurns turns m s = .next u ∧ u.enabled (turns m) = true

/-- `T` is one of the causes E1 to E5 of ERR (R119) at the engine `e`: E1 where busy, E2 at offset 0, E3 at offset
0x08, E4 from 0x40 on, E5 at the misaligned offsets. -/
def Engine.ErrCause (e : Engine) (T : TxnWord) : Prop :=
  txnWrite T = true ∧ (e.busy = true ∨ (txnOff T = 0 ∧ (txnData T).extractLsb' 0 2 = 3) ∨ txnOff T = 0x08 ∨
    0x40 ≤ (txnOff T).toNat ∨ (txnOff T).toNat % 8 ≠ 0)

/-- `n` engine steps, one after the other, with no host transaction between them. -/
def Engine.engineSteps : Nat → Engine → Engine
  | 0, e => e
  | n + 1, e => (Engine.engineSteps n e).engineStep

/-- The transaction word the next step issues, where the turn is the host's and its next operation is a
transaction of this block. -/
def State.nextTxn (s : State) : Option TxnWord :=
  match s.turn, s.program[s.hostPc]? with
  | .host, some (.issue T _) => some T
  | .host, some (.access write addr bytes wdata _) => (busWord s.unit write addr bytes wdata).toOption
  | _, _ => none

/-- Instructions run one after the other with no engine step between them. -/
def execAll : List Instr → State → Host.Outcome State Fault Refusal
  | [], s => .next s
  | i :: rest, s =>
    match exec i s with
    | .next t => execAll rest t
    | .fault r => .fault r
    | .refused r => .refused r

end Sys2Proof.Machine
end

