-- ==== Sys2Proof/Certificates/Slice0/Obligations.lean ====
section
/-! DEFINITION. What this model claims of the hardware, for the provers: one definition per statement, each
from the numbered rules of spec/. Nothing is proved here. -/

open Sys2Proof Sys2Proof.Machine

/-! ### Encoding (spec/30_encoding.md) -/

/-- R54–R56: decoding an encoded well-formed instruction gives it back. That an instruction keeps the bits the
block ignores is the model's choice (log 11). -/
def Obligations.DecodeOfEncodeIsInstruction : Prop :=
  ∀ i : Instr, i.wf = true → decode (encode i) = i

/-- R54–R56: encoding what a word decodes to gives the word back. That this holds of the bits the block ignores too,
so that no bit of a word is dropped, is the model's choice (log 11: instructions keep the ignored bits). -/
def Obligations.EncodeOfDecodeIsWord : Prop :=
  ∀ T : TxnWord, encode (decode T) = T

/-- R61, R62: every word decodes to a well-formed instruction of exactly one row of the opcode table; the only
other row whose bits a word may have is REG_WRITE, which the command rows refine. -/
def Obligations.EveryWordHasOneRow : Prop :=
  ∀ T : TxnWord, (decode T).wf = true ∧ (decode T).row ∈ opcodeTable ∧
    (decode T).row.matchesWord T = true ∧
    ∀ r ∈ opcodeTable, r.matchesWord T = true →
      r = (decode T).row ∨ (r = rowRegWrite ∧ txnWrite T = true ∧ txnOff T = 0)

/-- The spec's fifteen example words decode to what their notation says (spec/30 section 7, which derives them from
R54 and R55). -/
def Obligations.SpecExampleWordsDecode : Prop :=
  decode 0x800000000000000001 = .encrypt false 0 ∧
  decode 0x800000000000000002 = .decrypt false 0 ∧
  decode 0x800000000000000004 = .nop true 0 ∧
  decode 0x800000000000000003 = .cmdReserved false 0 ∧
  decode 0x080000000000000000 = .regRead 0x08 0 ∧
  decode 0x900123456789ABCDEF = .regWrite 0x10 0x0123456789ABCDEF ∧
  decode 0x980000000000000001 = .regWrite 0x18 1 ∧
  decode 0xA00000000000000000 = .regWrite 0x20 0 ∧
  decode 0xA80000000000000000 = .regWrite 0x28 0 ∧
  decode 0xB00000000000000000 = .regWrite 0x30 0 ∧
  decode 0xB80000000000000001 = .regWrite 0x38 1 ∧
  decode 0x100000000000000000 = .regRead 0x10 0 ∧
  decode 0x180000000000000000 = .regRead 0x18 0 ∧
  decode 0xC00000000000000000 = .regWrite 0x40 0 ∧
  decode 0x910000000000000000 = .regWrite 0x11 0

/-- R63: a string of bytes is a transaction exactly when it is nine bytes long, and then it decodes. The
bytes' order is the model's choice (log 10) and is not part of the statement. -/
def Obligations.ByteStringsDecodeAtNineBytes : Prop :=
  ∀ bs : List Byte, (∃ i, decodeBytes bs = .ok i) ↔ bs.length = 9

/-! ### The datapath (spec/40_feistel_datapath.md) -/

/-- R68, R69: both shifts as arithmetic and bit by bit, with the rules' own corner cases. -/
def Obligations.ShiftsMatchTheirArithmetic : Prop :=
  (∀ x : Word, (shl4 x).toNat = x.toNat * 16 % 2 ^ 64 ∧ (shr5 x).toNat = x.toNat / 32) ∧
  (∀ (x : Word) (i : Nat), i < 64 →
    (shl4 x).getLsbD i = (decide (4 ≤ i) && x.getLsbD (i - 4)) ∧
    (shr5 x).getLsbD i = (decide (i ≤ 58) && x.getLsbD (i + 5))) ∧
  shl4 0xF000000000000000 = 0 ∧ shl4 0xFFFFFFFFFFFFFFFF = 0xFFFFFFFFFFFFFFF0 ∧
  shl4 0x0FD258F8F3210C68 = 0xFD258F8F3210C680 ∧
  shr5 0x8000000000000000 = 0x0400000000000000 ∧ shr5 0x1F = 0 ∧
  shr5 0xFFFFFFFFFFFFFFFF = 0x07FFFFFFFFFFFFFF ∧ shr5 0x0FD258F8F3210C68 = 0x007E92C7C7990863

/-- R72: F is the exclusive or of the three wrapping sums, with the rule's own corner cases and example. -/
def Obligations.MixingFunctionValue : Prop :=
  (∀ x s ka kb : Word, (mix x s ka kb).toNat =
    ((x.toNat * 16 + ka.toNat) % 2 ^ 64) ^^^ ((x.toNat + s.toNat) % 2 ^ 64) ^^^
      ((x.toNat / 32 + kb.toNat) % 2 ^ 64)) ∧
  mix 0xFFFFFFFFFFFFFFFF 1 0 0 = 0xF80000000000000F ∧ (0xFFFFFFFFFFFFFFFF : Word) + 1 = 0 ∧
  (∀ s : Word, mix 0 s 0 0 = s) ∧
  mix 0xFFFFFFFFFFFFFFFF 0 0xFFFFFFFFFFFFFFFF 0xFFFFFFFFFFFFFFFF = 0x07FFFFFFFFFFFFEE ∧
  shl4 0x0FD258F8F3210C68 + 0 = 0xFD258F8F3210C680 ∧
  (0x0FD258F8F3210C68 : Word) + 0x0FD258F8F3210C68 = 0x1FA4B1F1E64218D0 ∧
  shr5 0x0FD258F8F3210C68 + 1 = 0x007E92C7C7990864 ∧
  mix 0x0FD258F8F3210C68 0x0FD258F8F3210C68 0 1 = 0xE2FFACB913CBD634

/-- R73–R78: the four half-rounds wrap modulo 2^64, and an iteration is them in the rule's order, each reading
the values the statements before it left; with the rules' own examples. -/
def Obligations.HalfRoundsAndIterations : Prop :=
  (∀ y z s ka kb : Word,
    (encY y z s ka kb).toNat = (y.toNat + (mix z s ka kb).toNat) % 2 ^ 64 ∧
    (encZ y z s ka kb).toNat = (z.toNat + (mix y s ka kb).toNat) % 2 ^ 64 ∧
    (decZ y z s ka kb).toNat = (z.toNat + (2 ^ 64 - (mix y s ka kb).toNat)) % 2 ^ 64 ∧
    (decY y z s ka kb).toNat = (y.toNat + (2 ^ 64 - (mix z s ka kb).toNat)) % 2 ^ 64) ∧
  (∀ y z sum k0 k1 k2 k3 : Word, ∃ y' z' sum' : Word,
    sum' = sum + 0x0FD258F8F3210C68 ∧ y' = encY y z sum' k0 k1 ∧ z' = encZ y' z sum' k2 k3 ∧
    encIter ⟨k0, k1, k2, k3⟩ ⟨y, z, sum⟩ = ⟨y', z', sum'⟩) ∧
  (∀ y z sum k0 k1 k2 k3 : Word, ∃ y' z' sum' : Word,
    z' = decZ y z sum k2 k3 ∧ y' = decY y z' sum k0 k1 ∧ sum' = sum - 0x0FD258F8F3210C68 ∧
    decIter ⟨k0, k1, k2, k3⟩ ⟨y, z, sum⟩ = ⟨y', z', sum'⟩) ∧
  encY 0 0 0x0FD258F8F3210C68 0 0 = 0x0FD258F8F3210C68 ∧
  encZ 0x0FD258F8F3210C68 0 0x0FD258F8F3210C68 0 1 = 0xE2FFACB913CBD634 ∧
  mix 0x6EBC0771D933588A 0xF4963E3CC8431A00 0 1 = 0x8BE7D288BC8A60EF ∧
  decZ 0x6EBC0771D933588A 0x020DA5B4625E1867 0xF4963E3CC8431A00 0 1 = 0x7625D32BA5D3B778 ∧
  mix 0x7625D32BA5D3B778 0xF4963E3CC8431A00 0 0 = 0x0B500D4B6E033B43 ∧
  decY 0x6EBC0771D933588A 0x7625D32BA5D3B778 0xF4963E3CC8431A00 0 0 = 0x636BFA266B301D47 ∧
  encIter ⟨0, 0, 0, 1⟩ ⟨0, 0, 0⟩ = ⟨0x0FD258F8F3210C68, 0xE2FFACB913CBD634, 0x0FD258F8F3210C68⟩ ∧
  decIter ⟨0, 0, 0, 1⟩ ⟨0x6EBC0771D933588A, 0x020DA5B4625E1867, 0xF4963E3CC8431A00⟩ =
    ⟨0x636BFA266B301D47, 0x7625D32BA5D3B778, 0xE4C3E543D5220D98⟩

/-- Spec/40 section 6 derives this from R73–R78: each decryption half-round undoes its encryption half-round, and
DEC_ITER undoes ENC_ITER, for every working state and key (and, by the same argument the other way round, ENC_ITER
undoes DEC_ITER). -/
def Obligations.DecIterUndoesEncIter : Prop :=
  (∀ y z s ka kb : Word, decY (encY y z s ka kb) z s ka kb = y ∧ decZ y (encZ y z s ka kb) s ka kb = z) ∧
  (∀ (k : Key) (w : Working), decIter k (encIter k w) = w ∧ encIter k (decIter k w) = w)

/-- Spec/40 section 6 derives this from R75, R78–R80: encryption iteration i (1 to 64) uses i·DELTA and leaves SUM
there; decryption iteration j uses (65 − j)·DELTA and leaves (64 − j)·DELTA. -/
def Obligations.AccumulatorSchedule : Prop :=
  (∀ (k : Key) (y z : Word) (i : Nat), 1 ≤ i → i ≤ 64 →
    (iterMany .encrypt k (i - 1) ⟨y, z, 0⟩).sum + delta = BitVec.ofNat 64 i * delta ∧
    (iterMany .encrypt k i ⟨y, z, 0⟩).sum = BitVec.ofNat 64 i * delta) ∧
  (∀ (k : Key) (y z : Word) (j : Nat), 1 ≤ j → j ≤ 64 →
    (iterMany .decrypt k (j - 1) ⟨y, z, sumDecInit⟩).sum = BitVec.ofNat 64 (65 - j) * delta ∧
    (iterMany .decrypt k j ⟨y, z, sumDecInit⟩).sum = BitVec.ofNat 64 (64 - j) * delta)

/-- D undoes E under every key, the source's inverse property (R83); and E undoes D, so E is a bijection on blocks,
as spec/40 section 6 derives. -/
def Obligations.DecryptInvertsEncrypt : Prop :=
  ∀ k : Key,
    (∀ b, decryptBlock k (encryptBlock k b) = b) ∧ (∀ c, encryptBlock k (decryptBlock k c) = c) ∧
    Function.Bijective (encryptBlock k)

/-- R86: k0 and k1 enter only the y half-rounds, k2 and k3 only the z half-rounds; within F the first key word
is added to the left-shifted term and the second to the right-shifted one. -/
def Obligations.KeyWordsEnterTheirHalfRounds : Prop :=
  (∀ (k : Key) (a b : Word) (w : Working),
    (encIter { k with k2 := a, k3 := b } w).y = (encIter k w).y ∧
    (decIter { k with k0 := a, k1 := b } w).z = (decIter k w).z ∧
    (encIter { k with k0 := a, k1 := b } w).z =
      w.z + mix (encIter { k with k0 := a, k1 := b } w).y (w.sum + delta) k.k2 k.k3 ∧
    (decIter { k with k2 := a, k3 := b } w).y =
      w.y - mix (decIter { k with k2 := a, k3 := b } w).z w.sum k.k0 k.k1) ∧
  (∀ x s ka kb : Word, mix x s ka kb = ((x <<< 4) + ka) ^^^ (x + s) ^^^ ((x >>> 5) + kb))

/-! ### Commands (spec/41_engine_commands.md) -/

/-- R91: NOP. Its words are the CTRL writes with `C[1:0] = 00`; while idle it changes nothing beyond CLR, for every
value of the ignored bits; while busy ERR is set and nothing else changes. -/
def Obligations.NopEffect : Prop :=
  ∀ (clr : Bool) (g : BitVec 61) (s : State),
    decode (1#1 ++ 0#7 ++ g ++ BitVec.ofBool clr ++ 0b00#2) = .nop clr g ∧
    (s.eng.busy = false → exec (.nop clr g) s = .next { s with eng := { s.eng with
      done := if clr then false else s.eng.done, err := if clr then false else s.eng.err } }) ∧
    (s.eng.busy = true → exec (.nop clr g) s = .next { s with eng := { s.eng with err := true } })

/-- R92: ENCRYPT, `C[1:0] = 01`. While idle it starts an encryption of DATA, with ERR unchanged unless CLR = 1 and
nothing else changed; while busy ERR is set and nothing else changes. -/
def Obligations.EncryptEffect : Prop :=
  ∀ (clr : Bool) (g : BitVec 61) (s : State),
    decode (1#1 ++ 0#7 ++ g ++ BitVec.ofBool clr ++ 0b01#2) = .encrypt clr g ∧
    (s.eng.busy = false → exec (.encrypt clr g) s = .next { s with eng := { s.eng with
      mode := .encrypt, y := s.eng.data0, z := s.eng.data1, sum := 0, iter := 0, done := false, busy := true,
      err := if clr then false else s.eng.err } }) ∧
    (s.eng.busy = true → exec (.encrypt clr g) s = .next { s with eng := { s.eng with err := true } })

/-- R93: DECRYPT, `C[1:0] = 10`. While idle it starts a decryption of DATA, with SUM at 64 times DELTA; while busy
ERR is set and nothing else changes. -/
def Obligations.DecryptEffect : Prop :=
  ∀ (clr : Bool) (g : BitVec 61) (s : State),
    decode (1#1 ++ 0#7 ++ g ++ BitVec.ofBool clr ++ 0b10#2) = .decrypt clr g ∧
    (s.eng.busy = false → exec (.decrypt clr g) s = .next { s with eng := { s.eng with
      mode := .decrypt, y := s.eng.data0, z := s.eng.data1, sum := 0xF4963E3CC8431A00, iter := 0, done := false,
      busy := true, err := if clr then false else s.eng.err } }) ∧
    (s.eng.busy = true → exec (.decrypt clr g) s = .next { s with eng := { s.eng with err := true } })

/-- R94: CMD_RESERVED, `C[1:0] = 11`. It starts nothing and ends with ERR = 1, after CLR, while idle, has cleared
DONE; no other register changes. -/
def Obligations.CmdReservedEffect : Prop :=
  ∀ (clr : Bool) (g : BitVec 61) (s : State),
    decode (1#1 ++ 0#7 ++ g ++ BitVec.ofBool clr ++ 0b11#2) = .cmdReserved clr g ∧
    (s.eng.busy = false → exec (.cmdReserved clr g) s = .next { s with eng := { s.eng with
      done := if clr then false else s.eng.done, err := true } }) ∧
    (s.eng.busy = true → exec (.cmdReserved clr g) s = .next { s with eng := { s.eng with err := true } })

/-- R95: every CTRL write while busy sets ERR and changes nothing else, whatever it holds. -/
def Obligations.CtrlWritesRefusedWhileBusy : Prop :=
  ∀ (C : Word) (s : State), s.eng.busy = true →
    exec (decode (txnWord true 0 C)) s = .next { s with eng := { s.eng with err := true } } ∧
    exec (.regWrite 0 C) s = .next { s with eng := { s.eng with err := true } }

/-- R90: an accepted CLR acts before the command; a CLR while busy acts not at all. -/
def Obligations.ClrActsBeforeTheCommand : Prop :=
  ∀ (cmd : Bool → BitVec 61 → Instr), cmd ∈ [Instr.nop, .encrypt, .decrypt, .cmdReserved] →
    ∀ (g : BitVec 61) (s : State),
      (s.eng.busy = false →
        exec (cmd true g) s = exec (cmd false g) { s with eng := { s.eng with done := false, err := false } }) ∧
      (s.eng.busy = true → exec (cmd true g) s = exec (cmd false g) s)

/-- R58: C[63:3] change nothing: two command words with the same low three bits act alike in every state. -/
def Obligations.IgnoredCommandBitsHaveNoEffect : Prop :=
  ∀ (C C' : Word) (s : State), C.extractLsb' 0 3 = C'.extractLsb' 0 3 →
    exec (decode (txnWord true 0 C)) s = exec (decode (txnWord true 0 C')) s

/-- R89: what a CTRL write does, as the rule's pseudocode has it, both as the command row it decodes to and as
REG_WRITE at offset 0. -/
def Obligations.CtrlWriteDispatch : Prop :=
  ∀ (C : Word) (s : State), ∃ e e' : Engine,
    e = (if C.getLsbD 2 then { s.eng with done := false, err := false } else s.eng) ∧
    (s.eng.busy = true → e' = { s.eng with err := true }) ∧
    (s.eng.busy = false → C.extractLsb' 0 2 = 0 → e' = e) ∧
    (s.eng.busy = false → C.extractLsb' 0 2 = 1 → e' = { e with
      mode := .encrypt, y := e.data0, z := e.data1, sum := 0, iter := 0, done := false, busy := true }) ∧
    (s.eng.busy = false → C.extractLsb' 0 2 = 2 → e' = { e with
      mode := .decrypt, y := e.data0, z := e.data1, sum := 0xF4963E3CC8431A00, iter := 0, done := false,
      busy := true }) ∧
    (s.eng.busy = false → C.extractLsb' 0 2 = 3 → e' = { e with err := true }) ∧
    exec (decode (txnWord true 0 C)) s = .next { s with eng := e' } ∧
    exec (.regWrite 0 C) s = .next { s with eng := e' }

/-! ### Register reads (spec/42_register_access.md) -/

/-- R103–R108: REG_READ. Its words are those with `T[71] = 0`; at any offset, in any state, whatever WDATA holds, it
answers the slot's value and changes nothing. -/
def Obligations.RegReadAnswersTheSlot : Prop :=
  ∀ (off : BitVec 7) (wdata : Word) (s : State),
    decode (0#1 ++ off ++ wdata) = .regRead off wdata ∧
    exec (.regRead off wdata) s = .next { s with rdata := some (
      if off = 0x08 then BitVec.ofNat 64 ((if s.eng.mode = .decrypt then 8 else 0) +
        (if s.eng.err then 4 else 0) + (if s.eng.done then 2 else 0) + (if s.eng.busy then 1 else 0))
      else if off = 0x10 then (if s.eng.busy then 0 else s.eng.data0)
      else if off = 0x18 then (if s.eng.busy then 0 else s.eng.data1)
      else 0) }

/-- R43: a read, of any slot, aligned or not, idle or busy, changes no engine state, sets no flag, and repeated it
answers the same. -/
def Obligations.ReadsAreIdempotent : Prop :=
  ∀ (off : BitVec 7) (wdata wdata' : Word) (s : State), ∃ t,
    exec (.regRead off wdata) s = .next t ∧ t.eng = s.eng ∧ exec (.regRead off wdata') t = .next t

/-- R35, R107: no read tells the keys, the working registers or ITER, nor, while busy, DATA: two states that
agree on STATUS, and on DATA while idle, answer every read alike. -/
def Obligations.HiddenStateIsNotReadable : Prop :=
  ∀ (s s' t t' : State) (off : BitVec 7) (wdata : Word),
    s.eng.busy = s'.eng.busy → s.eng.done = s'.eng.done → s.eng.err = s'.eng.err → s.eng.mode = s'.eng.mode →
    (s.eng.busy = false → s.eng.data0 = s'.eng.data0 ∧ s.eng.data1 = s'.eng.data1) →
    exec (.regRead off wdata) s = .next t → exec (.regRead off wdata) s' = .next t' →
    t.rdata = t'.rdata

/-- R60, R25: what a STATUS read answers, bit by bit; bits 63 to 4 are 0 in every state. -/
def Obligations.StatusWordBits : Prop :=
  ∀ (wdata : Word) (s : State), ∃ r, exec (.regRead 0x08 wdata) s = .next { s with rdata := some r } ∧
    r.getLsbD 0 = s.eng.busy ∧ r.getLsbD 1 = s.eng.done ∧ r.getLsbD 2 = s.eng.err ∧
    r.getLsbD 3 = decide (s.eng.mode = .decrypt) ∧ (∀ i, 4 ≤ i → r.getLsbD i = false) ∧ r.toNat < 16

/-! ### Register writes (spec/42_register_access.md) -/

/-- R112, R113: a DATA or KEY write stores the whole word while idle and changes nothing else; while busy it is
refused with ERR. -/
def Obligations.DataAndKeyWrites : Prop :=
  ∀ (v : Word) (s : State),
    (s.eng.busy = false →
      exec (.regWrite 0x10 v) s = .next { s with eng := { s.eng with data0 := v } } ∧
      exec (.regWrite 0x18 v) s = .next { s with eng := { s.eng with data1 := v } } ∧
      exec (.regWrite 0x20 v) s = .next { s with eng := { s.eng with key0 := v } } ∧
      exec (.regWrite 0x28 v) s = .next { s with eng := { s.eng with key1 := v } } ∧
      exec (.regWrite 0x30 v) s = .next { s with eng := { s.eng with key2 := v } } ∧
      exec (.regWrite 0x38 v) s = .next { s with eng := { s.eng with key3 := v } }) ∧
    (s.eng.busy = true → ∀ off : BitVec 7, off ∈ [0x10, 0x18, 0x20, 0x28, 0x30, 0x38] →
      exec (.regWrite off v) s = .next { s with eng := { s.eng with err := true } })

/-- R111, R114: a write to STATUS, to a reserved slot, or at a misaligned offset sets ERR and changes nothing
else, idle or busy. -/
def Obligations.StatusReservedAndMisalignedWrites : Prop :=
  ∀ (off : BitVec 7) (v : Word) (s : State),
    off = 0x08 ∨ 0x40 ≤ off.toNat ∨ off.toNat % 8 ≠ 0 →
    exec (.regWrite off v) s = .next { s with eng := { s.eng with err := true } }

/-- R140: a DATA write accepted while idle is seen by the very next read and by the next start, whichever start it
is; a KEY write by the next start, whose operation runs under it; and the start by the very next STATUS read. -/
def Obligations.WritesAreSeenAtOnce : Prop :=
  ∀ (start : Bool → BitVec 61 → Instr), start ∈ [Instr.encrypt, .decrypt] →
    ∀ (clr : Bool) (g : BitVec 61) (v wdata : Word) (s : State), s.eng.busy = false →
    (∃ t, exec (.regWrite 0x10 v) s = .next t ∧
      exec (.regRead 0x10 wdata) t = .next { t with rdata := some v } ∧
      ∃ u, exec (start clr g) t = .next u ∧ u.eng.y = v ∧ u.eng.z = s.eng.data1 ∧
        ∃ r, exec (.regRead 0x08 wdata) u = .next { u with rdata := some r } ∧ r.getLsbD 0 = true) ∧
    (∃ t, exec (.regWrite 0x18 v) s = .next t ∧
      exec (.regRead 0x18 wdata) t = .next { t with rdata := some v } ∧
      ∃ u, exec (start clr g) t = .next u ∧ u.eng.y = s.eng.data0 ∧ u.eng.z = v ∧
        ∃ r, exec (.regRead 0x08 wdata) u = .next { u with rdata := some r } ∧ r.getLsbD 0 = true) ∧
    (∀ (off : BitVec 7) (k : Key),
      (off, k) ∈ [((0x20 : BitVec 7), { s.eng.key with k0 := v }), (0x28, { s.eng.key with k1 := v }),
        (0x30, { s.eng.key with k2 := v }), (0x38, { s.eng.key with k3 := v })] →
      ∃ t u, exec (.regWrite off v) s = .next t ∧ t.eng.key = k ∧ exec (start clr g) t = .next u ∧
        u.eng.engineStep.working = iterOnce u.eng.mode k u.eng.working ∧
        ∃ r, exec (.regRead 0x08 wdata) u = .next { u with rdata := some r } ∧ r.getLsbD 0 = true)

/-- R44: a DATA or KEY write, and every refused write, done twice leaves what doing it once leaves. -/
def Obligations.WritesOtherThanCommandsAreIdempotent : Prop :=
  ∀ (off : BitVec 7) (v : Word) (s : State), off ≠ 0 ∨ s.eng.busy = true →
    ∃ t, exec (.regWrite off v) s = .next t ∧ exec (.regWrite off v) t = .next t

/-- R135: idle writes to different DATA and KEY registers may come in either order. -/
def Obligations.IdleOperandWritesCommute : Prop :=
  ∀ (a b : BitVec 7) (v w : Word) (s : State), s.eng.busy = false → a ≠ b →
    a ∈ [0x10, 0x18, 0x20, 0x28, 0x30, 0x38] → b ∈ [0x10, 0x18, 0x20, 0x28, 0x30, 0x38] →
    ∃ t, execAll [.regWrite a v, .regWrite b w] s = .next t ∧ execAll [.regWrite b w, .regWrite a v] s = .next t

/-- R119: the causes E1 to E5 set ERR and nothing else does. A transaction that is one of them leaves ERR = 1 and, but
for the DONE that an accepted CLR clears first, nothing else changed, so no cause is told from another; one that is
none of them, every read among them, leaves ERR as it was, unless an accepted CLR cleared it. And a step of any kind
(the engine's, a branch, the pin's) turns ERR from 0 to 1 only where the host issues one of the causes, and always
does so there. -/
def Obligations.ErrIsSetByItsCausesOnly : Prop :=
  (∀ (T : TxnWord) (s t : State), exec (decode T) s = .next t →
    (s.eng.ErrCause T → t.eng = { s.eng with
      err := true
      done := if s.eng.busy = false ∧ txnOff T = 0 ∧ (txnData T).getLsbD 2 = true then false else s.eng.done }) ∧
    (¬ s.eng.ErrCause T → t.eng.err =
      if txnWrite T = true ∧ txnOff T = 0 ∧ (txnData T).getLsbD 2 = true then false else s.eng.err) ∧
    (txnWrite T = false → ¬ s.eng.ErrCause T)) ∧
  (∀ s t : State, step s = .next t → s.eng.err = false → t.eng.err = true →
    ∃ T, s.nextTxn = some T ∧ s.eng.ErrCause T) ∧
  (∀ (s t : State) (T : TxnWord), s.rst = false → step s = .next t → s.nextTxn = some T → s.eng.ErrCause T →
    t.eng.err = true)

/-- R19, R21–R29, R59: the frame of every instruction. KEY changes only by an idle write to its own slot, DATA
likewise, and MODE, Y, Z, SUM, ITER and BUSY only by an idle CTRL write of ENCRYPT or DECRYPT. -/
def Obligations.InstructionFrame : Prop :=
  ∀ (T : TxnWord) (s t : State), exec (decode T) s = .next t →
    (t.rst = s.rst ∧ t.program = s.program ∧ t.hostPc = s.hostPc ∧ t.vars = s.vars ∧ t.schedule = s.schedule ∧
      t.freeTurns = s.freeTurns ∧ t.unit = s.unit) ∧
    (txnWrite T = true → t.rdata = s.rdata) ∧ (txnWrite T = false → t.eng = s.eng) ∧
    (∀ (r : Engine → Word) (off : BitVec 7),
      (r, off) ∈ [(Engine.data0, (0x10 : BitVec 7)), (Engine.data1, 0x18), (Engine.key0, 0x20),
        (Engine.key1, 0x28), (Engine.key2, 0x30), (Engine.key3, 0x38)] →
      r t.eng = if txnWrite T = true ∧ txnOff T = off ∧ s.eng.busy = false then txnData T else r s.eng) ∧
    (¬ (txnWrite T = true ∧ txnOff T = 0 ∧ s.eng.busy = false ∧
        ((txnData T).extractLsb' 0 2 = 1 ∨ (txnData T).extractLsb' 0 2 = 2)) →
      t.eng.mode = s.eng.mode ∧ t.eng.working = s.eng.working ∧ t.eng.iter = s.eng.iter ∧
      t.eng.busy = s.eng.busy) ∧
    (¬ (txnWrite T = true ∧ txnOff T = 0 ∧ s.eng.busy = false) → t.eng.done = s.eng.done)

/-- R62, R120: every instruction completes in every state, and touches neither the pin, the host program, its
variables nor the choice of turns. -/
def Obligations.EveryInstructionCompletes : Prop :=
  ∀ (i : Instr) (s : State), ∃ t, exec i s = .next t ∧ t.rst = s.rst ∧ t.program = s.program ∧
    t.hostPc = s.hostPc ∧ t.vars = s.vars ∧ t.schedule = s.schedule ∧ t.freeTurns = s.freeTurns ∧ t.unit = s.unit

/-! ### The engine's own steps (spec/41_engine_commands.md) -/

/-- R97, R98: the engine's step while busy, before the 64th iteration and in it. -/
def Obligations.EngineStepIteratesAndCompletes : Prop :=
  ∀ (s : State) (ts : List Turn) (w : Working), s.rst = false → s.schedule = .engine :: ts →
    s.eng.busy = true →
    w = (if s.eng.mode = .encrypt
      then encIter ⟨s.eng.key0, s.eng.key1, s.eng.key2, s.eng.key3⟩ ⟨s.eng.y, s.eng.z, s.eng.sum⟩
      else decIter ⟨s.eng.key0, s.eng.key1, s.eng.key2, s.eng.key3⟩ ⟨s.eng.y, s.eng.z, s.eng.sum⟩) →
    (s.eng.iter.toNat < 63 → step s = .next { s with schedule := ts, eng := { s.eng with
      y := w.y, z := w.z, sum := w.sum, iter := s.eng.iter + 1 } }) ∧
    (s.eng.iter = 63 → ∃ t, step s = .next t ∧ t.eng.irq = true ∧ t = { s with schedule := ts, eng := { s.eng with
      y := w.y, z := w.z, sum := w.sum, data0 := w.y, data1 := w.z, iter := 0, busy := false, done := true } })

/-- R96: while idle the engine has no step; its turn changes no register. -/
def Obligations.IdleEngineHasNoStep : Prop :=
  ∀ (s : State) (ts : List Turn), s.rst = false → s.schedule = .engine :: ts → s.eng.busy = false →
    step s = .next { s with schedule := ts }

/-- R96, R117: a run that is over stays as it is: whether the turn is the host's or the engine's, and whether it was
listed or chosen freely, only the turn is used up. That the model answers a state at all is its own choice (log 3). -/
def Obligations.FinishedRunStaysAsItIs : Prop :=
  ∀ s : State, s.rst = false → s.finished = true → s.turn = .host ∨ s.turn = .engine → step s = .next s.takeTurn

/-- Spec/41 section 4 derives this from R92, R93, R97, R98: an operation takes exactly 64 engine steps, BUSY
throughout, and leaves E or D of the block it started on; SUM ends at 64 times DELTA or at 0. -/
def Obligations.OperationTakes64EngineSteps : Prop :=
  ∀ (clr : Bool) (g : BitVec 61) (s : State), s.eng.busy = false →
    (∃ t, exec (.encrypt clr g) s = .next t ∧
      (∀ n, n < 64 → (Engine.engineSteps n t.eng).busy = true ∧ (Engine.engineSteps n t.eng).done = false ∧
        (Engine.engineSteps n t.eng).iter.toNat = n ∧ (Engine.engineSteps n t.eng).block = s.eng.block) ∧
      (Engine.engineSteps 64 t.eng) = { t.eng with
        data0 := (encryptBlock s.eng.key s.eng.block).1, data1 := (encryptBlock s.eng.key s.eng.block).2,
        y := (encryptBlock s.eng.key s.eng.block).1, z := (encryptBlock s.eng.key s.eng.block).2,
        sum := 0xF4963E3CC8431A00, iter := 0, busy := false, done := true }) ∧
    (∃ t, exec (.decrypt clr g) s = .next t ∧
      (∀ n, n < 64 → (Engine.engineSteps n t.eng).busy = true ∧ (Engine.engineSteps n t.eng).done = false ∧
        (Engine.engineSteps n t.eng).iter.toNat = n ∧ (Engine.engineSteps n t.eng).block = s.eng.block) ∧
      (Engine.engineSteps 64 t.eng) = { t.eng with
        data0 := (decryptBlock s.eng.key s.eng.block).1, data1 := (decryptBlock s.eng.key s.eng.block).2,
        y := (decryptBlock s.eng.key s.eng.block).1, z := (decryptBlock s.eng.key s.eng.block).2,
        sum := 0, iter := 0, busy := false, done := true })

/-- Spec/41 section 4 derives this from R92, R93, R97, R98: whatever the host does and however its steps and the
engine's interleave, an operation that completes with no reset leaves E or D of the block and key it started with.
-/
def Obligations.ResultWhateverIsInterleaved : Prop :=
  ∀ (clr : Bool) (g : BitVec 61) (s s₁ t : State) (n : Nat), s.rst = false → s.eng.busy = false →
    runSteps n s₁ = .next t →
    (∀ m, m < n → ∃ u, runSteps m s₁ = .next u ∧ u.eng.busy = true) →
    t.eng.busy = false → t.rst = false →
    (exec (.encrypt clr g) s = .next s₁ →
      t.eng.block = encryptBlock s.eng.key s.eng.block ∧ t.eng.done = true) ∧
    (exec (.decrypt clr g) s = .next s₁ →
      t.eng.block = decryptBlock s.eng.key s.eng.block ∧ t.eng.done = true)

/-- R102: a start with no write between transforms the result: twice ENCRYPT is E of E, and DECRYPT after ENCRYPT
gives the block back; neither clears ERR. -/
def Obligations.ChainedOperations : Prop :=
  ∀ s : State, s.eng.busy = false → ∃ t₁ t₂ t₃,
    exec (.encrypt false 0) s = .next t₁ ∧
    exec (.encrypt false 0) { t₁ with eng := Engine.engineSteps 64 t₁.eng } = .next t₂ ∧
    exec (.decrypt false 0) { t₁ with eng := Engine.engineSteps 64 t₁.eng } = .next t₃ ∧
    (Engine.engineSteps 64 t₂.eng).block = encryptBlock s.eng.key (encryptBlock s.eng.key s.eng.block) ∧
    (Engine.engineSteps 64 t₃.eng).block = s.eng.block ∧
    (Engine.engineSteps 64 t₂.eng).err = s.eng.err ∧ (Engine.engineSteps 64 t₃.eng).err = s.eng.err

/-- R135: writing the key and the block, starting, letting the engine finish and reading gives E or D, for every
key and block and from every idle state. -/
def Obligations.BootSequenceComputesTheTransform : Prop :=
  ∀ (k : Key) (p : Word × Word) (s : State), s.eng.busy = false →
    (∃ t u v, execAll [.regWrite 0x20 k.k0, .regWrite 0x28 k.k1, .regWrite 0x30 k.k2, .regWrite 0x38 k.k3,
        .regWrite 0x10 p.1, .regWrite 0x18 p.2, .encrypt false 0] s = .next t ∧
      exec (.regRead 0x10 0) { t with eng := Engine.engineSteps 64 t.eng } = .next u ∧
      exec (.regRead 0x18 0) u = .next v ∧
      u.rdata = some (encryptBlock k p).1 ∧ v.rdata = some (encryptBlock k p).2) ∧
    (∃ t u v, execAll [.regWrite 0x20 k.k0, .regWrite 0x28 k.k1, .regWrite 0x30 k.k2, .regWrite 0x38 k.k3,
        .regWrite 0x10 p.1, .regWrite 0x18 p.2, .decrypt false 0] s = .next t ∧
      exec (.regRead 0x10 0) { t with eng := Engine.engineSteps 64 t.eng } = .next u ∧
      exec (.regRead 0x18 0) u = .next v ∧
      u.rdata = some (decryptBlock k p).1 ∧ v.rdata = some (decryptBlock k p).2)

/-- R116 with spec/41 section 4, "BUSY = 1 cannot persist through more than 64 engine steps": from every state that
meets the invariant, an operation in flight completes, with its result, in the engine steps it has left, and no
sooner. -/
def Obligations.OperationInFlightCompletes : Prop :=
  ∀ (s : State) (ts : List Turn), s.Inv → s.rst = false → s.eng.busy = true →
    s.schedule = List.replicate (64 - s.eng.iter.toNat) .engine ++ ts →
    (∀ m, m < 64 - s.eng.iter.toNat → ∃ u, runSteps m s = .next u ∧ u.eng.busy = true) ∧
    ∃ t, runSteps (64 - s.eng.iter.toNat) s = .next t ∧ t.eng.busy = false ∧ t.eng.done = true ∧
      t.eng.block = transform s.eng.mode s.eng.key s.eng.block

/-! ### Invariants (spec/10_state.md R33) -/

/-- Spec/10 section 7 and R132: the invariant holds right after reset. That the host variables are in canonical form
is the model's choice (log 6), and so is their value here (log 7). -/
def Obligations.ResetMeetsTheInvariant : Prop := State.reset.Inv

/-- Every step keeps the invariant, from every state that meets it: what spec/10 section 7 derives of BUSY, DONE, ITER
and SUM; the computation in flight, from R92, R93, R97 (spec/41); the engine at its reset values while rst is asserted
(R132; that this is a level held in State is the model's choice, log 4); and the host variables' canonical form, the
model's own choice (log 6). -/
def Obligations.StepKeepsTheInvariant : Prop :=
  ∀ s t : State, s.Inv → step s = .next t → t.Inv

/-- Spec/10 section 7 derives this: every reachable state is consistent, whatever the host program and the
schedule. -/
def Obligations.ReachableStatesAreConsistent : Prop :=
  ∀ (program : List HostOp) (schedule : List Turn) (unit n : Nat) (t : State),
    runSteps n { State.reset with program := program, schedule := schedule, unit := unit } = .next t →
      t.eng.Consistent

/-! ### Rules of the whole machine -/

/-- R95, R97, R112, R113: while an operation is in flight no step changes its key or MODE, nor, until it
completes, DATA; ERR is never cleared. -/
def Obligations.BusyLocksTheOperands : Prop :=
  ∀ s t : State, s.rst = false → s.eng.busy = true → step s = .next t → t.rst = false →
    t.eng.key = s.eng.key ∧ t.eng.mode = s.eng.mode ∧ (t.eng.busy = true → t.eng.block = s.eng.block) ∧
    (s.eng.err = true → t.eng.err = true)

/-- R23, R121: ERR is sticky: only reset, or a CTRL write with CLR accepted while idle, clears it. -/
def Obligations.ErrIsSticky : Prop :=
  ∀ s t : State, s.rst = false → step s = .next t → s.eng.err = true → t.eng.err = false →
    t.rst = true ∨
    (s.eng.busy = false ∧ ∃ T, s.nextTxn = some T ∧ txnWrite T = true ∧ txnOff T = 0 ∧
      (txnData T).getLsbD 2 = true)

/-- R31, and what spec/41 section 4 derives: irq is DONE; it rises only in the engine step of the 64th iteration,
falls only by reset, an accepted start or an accepted CLR, and a step of the host while busy never changes it. -/
def Obligations.IrqChangesAtItsPoints : Prop :=
  ∀ s t : State, s.rst = false → step s = .next t →
    s.eng.irq = s.eng.done ∧
    (s.eng.irq = false → t.eng.irq = true → s.turn = .engine ∧ s.eng.busy = true ∧ s.eng.iter = 63) ∧
    (s.turn = .engine → s.eng.busy = true → s.eng.iter = 63 → t.eng.irq = true) ∧
    (s.eng.irq = true → t.eng.irq = false → t.rst = true ∨
      (s.eng.busy = false ∧ ∃ T, s.nextTxn = some T ∧ txnWrite T = true ∧ txnOff T = 0 ∧
        ((txnData T).extractLsb' 0 2 = 1 ∨ (txnData T).extractLsb' 0 2 = 2 ∨ (txnData T).getLsbD 2 = true))) ∧
    (s.turn = .host → s.eng.busy = true → t.eng.irq = s.eng.irq)

/-- R21: BUSY rises only by an ENCRYPT or DECRYPT written to CTRL while idle. -/
def Obligations.BusyRisesOnlyAtAStart : Prop :=
  ∀ s t : State, s.rst = false → step s = .next t → s.eng.busy = false → t.eng.busy = true →
    ∃ T, s.nextTxn = some T ∧ txnWrite T = true ∧ txnOff T = 0 ∧
      ((txnData T).extractLsb' 0 2 = 1 ∨ (txnData T).extractLsb' 0 2 = 2)

/-- R98, and what spec/20 section 5 derives: BUSY falls, reset apart, only in the step that writes the result, and DATA
reads answer that result from then on: in every state of a run in which rst is not asserted and the host writes
neither DATA0 nor DATA1 and starts no operation. -/
def Obligations.BusyFallsWithTheResult : Prop :=
  ∀ (s t : State) (wdata : Word), s.rst = false → step s = .next t → s.eng.busy = true →
    t.eng.busy = false → t.rst = false →
    s.eng.iter = 63 ∧ t.eng.done = true ∧ t.eng.data0 = t.eng.y ∧ t.eng.data1 = t.eng.z ∧
    t.eng.working = iterOnce s.eng.mode s.eng.key s.eng.working ∧
    ∀ (n : Nat) (u : State), runSteps n t = .next u →
      (∀ m v, m ≤ n → runSteps m t = .next v → v.rst = false ∧
        (m < n → ∀ T, v.nextTxn = some T → txnWrite T = true → txnOff T ≠ 0x10 ∧ txnOff T ≠ 0x18 ∧
          ¬ (txnOff T = 0 ∧ ((txnData T).extractLsb' 0 2 = 1 ∨ (txnData T).extractLsb' 0 2 = 2)))) →
      exec (.regRead 0x10 wdata) u = .next { u with rdata := some t.eng.y } ∧
      exec (.regRead 0x18 wdata) u = .next { u with rdata := some t.eng.z }

/-- R132: asserting rst, in any state, leaves every engine register at its reset value, in one step; while it stays
asserted every step leaves them there; and State.reset holds these values. That asserting it leaves the host's program,
position, variables and last response alone, as the equation of the step says, is the model's choice (log 4, log 6). -/
def Obligations.ResetClearsTheEngine : Prop :=
  ∀ r : Engine,
    r = { data0 := 0, data1 := 0, key0 := 0, key1 := 0, key2 := 0, key3 := 0, busy := false, done := false,
          err := false, mode := .encrypt, y := 0, z := 0, sum := 0, iter := 0 } →
    State.reset.eng = r ∧
    (∀ (s : State) (ts : List Turn), s.schedule = .rstAssert :: ts →
      step s = .next { s with schedule := ts, rst := true, eng := r }) ∧
    (∀ s t : State, s.rst = true → step s = .next t → t.eng = r)

/-- Spec/70 section 1 derives this from R132: after reset every read answers 0, irq is 0 and the engine is idle. -/
def Obligations.ReadsAfterResetAnswerZero : Prop :=
  ∀ (s : State) (off : BitVec 7) (wdata : Word), s.eng = State.reset.eng →
    exec (.regRead off wdata) s = .next { s with rdata := some 0 } ∧ s.eng.irq = false ∧ s.eng.busy = false

/-- R124, R137: where a DATA0 write and the 64th iteration meet, both orders are steps of the model: completion
first, and the write is stored; write first, and it is refused with ERR and the result stands. -/
def Obligations.CompletionAndWriteMayRace : Prop :=
  ∀ (s : State) (v : Word) (dst : Option Nat) (ts : List Turn), s.rst = false → s.eng.busy = true →
    s.eng.iter = 63 → s.program[s.hostPc]? = some (.issue (txnWord true 0x10 v) dst) →
    (∃ t, runSteps 2 { s with schedule := .engine :: .host :: ts } = .next t ∧
      t.eng.data0 = v ∧ t.eng.err = s.eng.err ∧ t.eng.busy = false ∧ t.eng.done = true) ∧
    (∃ t, runSteps 2 { s with schedule := .host :: .engine :: ts } = .next t ∧
      t.eng.data0 = (iterOnce s.eng.mode s.eng.key s.eng.working).y ∧ t.eng.err = true ∧
      t.eng.busy = false ∧ t.eng.done = true)

/-- R85, R144: BUSY, DONE, ERR and ITER after an engine turn, and after an instruction, depend on no key, block or
working value, nor on the mode: states that agree on those four go on agreeing, ENCRYPT and DECRYPT alike. -/
def Obligations.ControlIsIndependentOfData : Prop :=
  ∀ s s' : State, s.eng.busy = s'.eng.busy → s.eng.done = s'.eng.done → s.eng.err = s'.eng.err →
    s.eng.iter = s'.eng.iter →
    (s.eng.turn.busy = s'.eng.turn.busy ∧ s.eng.turn.done = s'.eng.turn.done ∧
      s.eng.turn.err = s'.eng.turn.err ∧ s.eng.turn.iter = s'.eng.turn.iter) ∧
    (∀ (i i' : Instr) (t t' : State), exec i s = .next t → exec i' s' = .next t' →
      (i' = i ∨ (∃ off v v', off ≠ 0 ∧ i = .regWrite off v ∧ i' = .regWrite off v') ∨
        ∃ clr g, i = .encrypt clr g ∧ i' = .decrypt clr g) →
      t.eng.busy = t'.eng.busy ∧ t.eng.done = t'.eng.done ∧ t.eng.err = t'.eng.err ∧ t.eng.iter = t'.eng.iter)

/-! ### Steps, hosts and platforms -/

/-- R115: where the turn is the host's and its next operation issues `T`, a step runs exactly the instruction `T`
decodes to, with the response lines cleared before it; then the host program moves on and a response goes to its
variable. How that bookkeeping looks is the model's choice (log 5, log 6). -/
def Obligations.StepRunsTheDecodedInstruction : Prop :=
  ∀ (s t : State) (T : TxnWord) (i : Instr) (dst : Option Nat), s.rst = false → s.turn = .host →
    s.program[s.hostPc]? = some (.issue T dst) → decode T = i →
    exec i { s.takeTurn with rdata := none } = .next t →
    step s = .next { t with
      hostPc := s.hostPc + 1
      vars := match dst, t.rdata with
        | some h, some v => setVar s.vars h v
        | _, _ => s.vars }

/-- The model's own (log 7): `withFetchWord` makes the very next step run what its word decodes to, from every
state. -/
def Obligations.FetchWordRunsNext : Prop :=
  ∀ (s t : State) (nbits w : Nat) (i : Instr), decodeTableWord nbits w = some i →
    exec i { s.withFetchWord nbits w with schedule := s.schedule, rdata := none } = .next t →
    step (s.withFetchWord nbits w) = .next { t with hostPc := t.hostPc + 1 } ∧
    (s.withFetchWord nbits w).eng = s.eng ∧ (s.withFetchWord nbits w).vars = s.vars

/-- R118, R120 and spec/93 section 2: no transaction and no engine step stops; only a host access that is no
transaction of this block does (R38, R41). That a turn with nothing to do is answered with a next state is the model's
choice (log 3: R96 and R117 say that there is no step), and so are the two refusals and their order (log 8). -/
def Obligations.StepStopsOnlyOnForeignAccesses : Prop :=
  ∀ s : State, (∃ t, step s = .next t) ∨
    ∃ write addr bytes wdata dst, s.turn = .host ∧
      s.program[s.hostPc]? = some (.access write addr bytes wdata dst) ∧
      ((step s = .refused .outsideWindow ∧ (addr < Config.engineBase s.unit ∨ Config.engineBase s.unit + 128 ≤ addr)) ∨
       (step s = .refused .notWholeWord ∧ Config.engineBase s.unit ≤ addr ∧
         addr < Config.engineBase s.unit + 128 ∧ bytes ≠ 8))

/-- R36, R38, R41: an 8-byte access at ENGINE_BASE + off is the transaction at offset off, at the engine's own
ENGINE_BASE; every other access is none of this block's. The refusals and their order are the model's choice (log 8). -/
def Obligations.WindowPlacesAccesses : Prop :=
  (∀ (write : Bool) (off : BitVec 7) (wdata : Word) (dst : Option Nat) (s : State),
    hostOp (.access write (Config.engineBase s.unit + off.toNat) 8 wdata dst) s =
      hostOp (.issue (txnWord write off (if write then wdata else 0)) dst) s) ∧
  (∀ (write : Bool) (addr bytes : Nat) (wdata : Word) (dst : Option Nat) (s : State),
    (addr < Config.engineBase s.unit ∨ Config.engineBase s.unit + 128 ≤ addr →
      hostOp (.access write addr bytes wdata dst) s = .refused .outsideWindow) ∧
    (Config.engineBase s.unit ≤ addr → addr < Config.engineBase s.unit + 128 → bytes ≠ 8 →
      hostOp (.access write addr bytes wdata dst) s = .refused .notWholeWord))

/-- R64: `if hN[b] == v goto LABEL` changes the host's position and nothing else; and so does the test of the `irq`
line, by which a host waits for completion (R49, R123), which falls through exactly where `irq`, DONE, is not at the
level it tests. The form of that test, and that a branch takes a turn, are the model's choice (log 6, log 18). -/
def Obligations.HostBranchMovesTheHostOnly : Prop :=
  (∀ (s : State) (h : Nat) (b : Fin 64) (v : Bool) (label : Nat), s.rst = false → s.turn = .host →
    s.program[s.hostPc]? = some (.ifGoto h b v label) →
    step s = .next { s.takeTurn with
      hostPc := if (getVar s.vars h).getLsbD b = v then label else s.hostPc + 1 }) ∧
  (∀ (s : State) (v : Bool) (label : Nat), s.rst = false → s.turn = .host →
    s.program[s.hostPc]? = some (.ifIrq v label) →
    step s = .next { s.takeTurn with hostPc := if s.eng.done = v then label else s.hostPc + 1 })

/-- R52, R129: a step of one engine leaves every other engine of the platform as it is, and its own engine makes
exactly its own step; each keeps its own window; and no access is a transaction of two engines. That a platform is a
list of machines numbered by rising window is the model's choice (log 13). -/
def Obligations.InstancesShareNothing : Prop :=
  (∀ (p q : Platform) (n : Nat), Platform.stepAt n p = .next q →
    q.length = p.length ∧ (∀ m, m ≠ n → q[m]? = p[m]?) ∧
    (∀ s, p[n]? = some s → ∃ t, step s = .next t ∧ q[n]? = some t) ∧ (p.wf → q.wf)) ∧
  (∀ (m n : Nat) (write : Bool) (addr bytes : Nat) (wdata : Word) (T : TxnWord), m ≠ n →
    busWord m write addr bytes wdata = .ok T → busWord n write addr bytes wdata = .error .outsideWindow)

/-! ### Endless runs (spec/42_register_access.md R115, R116) -/

/-- R116: in every run whose engine is weakly fair, an operation in flight does not stay in flight: however the
endless choice of turns goes, a number of steps leads to its completion with its result, or to a reset, or the host
steps outside this block's transactions and the run has no next state. And where the run does not stand still on turns
with nothing to do, which the hardware does not have (log 3), a host at `wait -> hN` leaves the loop with BUSY = 0 read,
and a host that waits for `irq` with an operation in flight or done goes on with DONE = 1, unless a reset comes first.
The positions the host stands at and the form of the wait for `irq` are the model's choice (log 6, log 18). -/
def Obligations.FairRunsComplete : Prop :=
  ∀ (turns : Nat → Turn) (s : State), s.Inv → s.rst = false → WeaklyFair turns s →
    (s.eng.busy = true → ∃ n, (∃ r, runTurns turns n s = .refused r) ∨
      ∃ t, runTurns turns n s = .next t ∧ t.eng.busy = false ∧
        (t.rst = true ∨ (t.eng.done = true ∧ t.eng.block = transform s.eng.mode s.eng.key s.eng.block))) ∧
    (∀ h, KeepsStepping turns s → (s.program.drop s.hostPc).take 2 = opWait s.hostPc h →
      ∃ n t, runTurns turns n s = .next t ∧ (t.rst = true ∨
        (t.hostPc = s.hostPc + 2 ∧ (getVar t.vars h).getLsbD 0 = false ∧ t.eng.busy = false ∧
          (s.eng.busy = true →
            t.eng.done = true ∧ t.eng.block = transform s.eng.mode s.eng.key s.eng.block)))) ∧
    (KeepsStepping turns s → (s.program.drop s.hostPc).take 1 = opWaitIrq s.hostPc →
      s.eng.busy = true ∨ s.eng.done = true →
      ∃ n t, runTurns turns n s = .next t ∧ (t.rst = true ∨
        (t.hostPc = s.hostPc + 1 ∧ t.eng.done = true ∧
          (s.eng.busy = true → t.eng.block = transform s.eng.mode s.eng.key s.eng.block))))

/-- R115, R116: the choice between a host step and an engine step is free, so a polling host can read BUSY = 1 any
number of times: after 2·k host turns of `wait -> hN` it has polled k times, reads BUSY = 1 in hN and stands at its
first operation again; so the endless run in which only the host polls exists, and is not weakly fair. That a poll is
two host turns, for a branch takes one of its own, and the canonical form of the variables are the model's choice
(log 6). -/
def Obligations.HostMayPollAnyNumberOfTimes : Prop :=
  ∀ (s : State) (h : Nat), s.rst = false → s.eng.busy = true → varsWf s.vars = true → s.program = opWait 0 h →
    s.hostPc = 0 →
    (∀ k, 0 < k → ∃ t, runTurns (fun _ => .host) (2 * k) s = .next t ∧ t.eng = s.eng ∧ t.hostPc = 0 ∧
      (getVar t.vars h).getLsbD 0 = true) ∧
    ¬ WeaklyFair (fun _ => .host) s
end

