-- ==== Sys2Proof/Laws/Datapath.lean ====
section
/-! SUPPORT. The datapath's functions, field by field; later proofs cite these and unfold none of them. -/

namespace Sys2Proof.Machine

@[simp] theorem encIter_sum (k : Key) (w : Working) : (encIter k w).sum = w.sum + delta := rfl
@[simp] theorem encIter_y (k : Key) (w : Working) :
    (encIter k w).y = w.y + mix w.z (w.sum + delta) k.k0 k.k1 := rfl
theorem encIter_z (k : Key) (w : Working) :
    (encIter k w).z = w.z + mix (encIter k w).y (w.sum + delta) k.k2 k.k3 := rfl

@[simp] theorem decIter_sum (k : Key) (w : Working) : (decIter k w).sum = w.sum - delta := rfl
@[simp] theorem decIter_z (k : Key) (w : Working) :
    (decIter k w).z = w.z - mix w.y w.sum k.k2 k.k3 := rfl
theorem decIter_y (k : Key) (w : Working) :
    (decIter k w).y = w.y - mix (decIter k w).z w.sum k.k0 k.k1 := rfl

@[simp] theorem iterOnce_encrypt (k : Key) (w : Working) : iterOnce .encrypt k w = encIter k w := rfl
@[simp] theorem iterOnce_decrypt (k : Key) (w : Working) : iterOnce .decrypt k w = decIter k w := rfl

@[simp] theorem iterMany_zero (m : Mode) (k : Key) (w : Working) : iterMany m k 0 w = w := rfl
theorem iterMany_succ (m : Mode) (k : Key) (n : Nat) (w : Working) :
    iterMany m k (n + 1) w = iterOnce m k (iterMany m k n w) := rfl

/-- The iterations may be peeled from the front as well. -/
theorem iterMany_succ_front (m : Mode) (k : Key) (n : Nat) (w : Working) :
    iterMany m k (n + 1) w = iterMany m k n (iterOnce m k w) := by
  induction n with
  | zero => rfl
  | succ n ih => rw [iterMany_succ, ih, iterMany_succ]

/-- A run of iterations may be cut in two. -/
theorem iterMany_add (m : Mode) (k : Key) (a b : Nat) (w : Working) :
    iterMany m k (a + b) w = iterMany m k a (iterMany m k b w) := by
  induction a with
  | zero => simp
  | succ a ih => rw [Nat.succ_add, iterMany_succ, ih, iterMany_succ]

@[simp] theorem sumInit_encrypt : sumInit .encrypt = 0 := rfl
@[simp] theorem sumInit_decrypt : sumInit .decrypt = sumDecInit := rfl

/-- SUM_DEC_INIT is 64 times DELTA (R71). -/
theorem sumDecInit_eq : sumDecInit = BitVec.ofNat 64 64 * delta := by decide

/-- One step of the accumulator, as a multiple of DELTA. -/
theorem mul_delta_succ (n : Nat) :
    BitVec.ofNat 64 (n + 1) * delta = BitVec.ofNat 64 n * delta + delta := by
  rw [← BitVec.ofNat_add_ofNat, BitVec.add_mul, BitVec.one_mul]

theorem transform_eq (m : Mode) (k : Key) (p : Word × Word) :
    transform m k p =
      ((iterMany m k 64 ⟨p.1, p.2, sumInit m⟩).y, (iterMany m k 64 ⟨p.1, p.2, sumInit m⟩).z) := rfl

end Sys2Proof.Machine
end

