-- ==== Sys2Proof/Laws/Encoding.lean ====
section
/-! SUPPORT. The fields of transaction and command words, read back from a word put together from them and
put together again from a word they were read from. -/

namespace Sys2Proof

/-- Bit by bit, a transaction word is `{K, OFF, WDATA}` (R54). -/
theorem txnWord_getLsbD (k : Bool) (off : BitVec 7) (v : Word) (n : Nat) :
    (txnWord k off v).getLsbD n =
      if n < 64 then v.getLsbD n else if n < 71 then off.getLsbD (n - 64) else (decide (n = 71) && k) := by
  refine (BitVec.getLsbD_append (x := BitVec.ofBool k ++ off) (y := v) (i := n)).trans ?_
  rw [BitVec.getLsbD_append, BitVec.getLsbD_ofBool]
  split
  · rfl
  · rw [Nat.sub_sub]
    by_cases h : n < 71
    · simp [h, show n - 64 < 7 by omega]
    · simp [h, show ¬ n - 64 < 7 by omega, show n - (64 + 7) = 0 ↔ n = 71 by omega]

/-- Bit by bit, a command word is `{ignored, CLR, CMD}` (R55). -/
theorem cmdWord_getLsbD (g : BitVec 61) (c h l : Bool) (n : Nat) :
    (cmdWord g c h l).getLsbD n =
      if n = 0 then l else if n = 1 then h else if n = 2 then c else g.getLsbD (n - 3) := by
  refine (BitVec.getLsbD_append (x := g ++ BitVec.ofBool c ++ BitVec.ofBool h) (y := BitVec.ofBool l)
    (i := n)).trans ?_
  rw [BitVec.getLsbD_append, BitVec.getLsbD_append]
  match n with
  | 0 => simp
  | 1 => simp
  | 2 => simp
  | n + 3 => simp

@[simp] theorem txnWrite_txnWord (k : Bool) (off : BitVec 7) (v : Word) :
    txnWrite (txnWord k off v) = k := by
  rw [txnWrite, txnWord_getLsbD]; simp

@[simp] theorem txnOff_txnWord (k : Bool) (off : BitVec 7) (v : Word) :
    txnOff (txnWord k off v) = off := by
  apply BitVec.eq_of_getLsbD_eq
  intro i hi
  rw [txnOff, BitVec.getLsbD_extractLsb', txnWord_getLsbD]
  simp [hi, show 64 + i < 71 by omega]

@[simp] theorem txnData_txnWord (k : Bool) (off : BitVec 7) (v : Word) :
    txnData (txnWord k off v) = v := by
  apply BitVec.eq_of_getLsbD_eq
  intro i hi
  rw [txnData, BitVec.getLsbD_extractLsb', txnWord_getLsbD]
  simp [hi]

@[simp] theorem txnWord_fields (T : TxnWord) : txnWord (txnWrite T) (txnOff T) (txnData T) = T := by
  apply BitVec.eq_of_getLsbD_eq
  intro i hi
  rw [txnWord_getLsbD, txnWrite, txnOff, txnData, BitVec.getLsbD_extractLsb', BitVec.getLsbD_extractLsb']
  split
  · simp [*]
  · split
    · simp [show i - 64 < 7 by omega, show 64 + (i - 64) = i by omega]
    · simp [show i = 71 by omega]

@[simp] theorem cmdHi_cmdWord (g : BitVec 61) (c h l : Bool) : cmdHi (cmdWord g c h l) = h := by
  rw [cmdHi, cmdWord_getLsbD]; simp

@[simp] theorem cmdLo_cmdWord (g : BitVec 61) (c h l : Bool) : cmdLo (cmdWord g c h l) = l := by
  rw [cmdLo, cmdWord_getLsbD]; simp

@[simp] theorem cmdClr_cmdWord (g : BitVec 61) (c h l : Bool) : cmdClr (cmdWord g c h l) = c := by
  rw [cmdClr, cmdWord_getLsbD]; simp

@[simp] theorem cmdIgnored_cmdWord (g : BitVec 61) (c h l : Bool) : cmdIgnored (cmdWord g c h l) = g := by
  apply BitVec.eq_of_getLsbD_eq
  intro i hi
  rw [cmdIgnored, BitVec.getLsbD_extractLsb', cmdWord_getLsbD]
  simp [hi, show 3 + i ≠ 1 by omega, show 3 + i ≠ 2 by omega]

@[simp] theorem cmdWord_fields (C : Word) : cmdWord (cmdIgnored C) (cmdClr C) (cmdHi C) (cmdLo C) = C := by
  apply BitVec.eq_of_getLsbD_eq
  intro i hi
  rw [cmdWord_getLsbD, cmdIgnored, cmdClr, cmdHi, cmdLo, BitVec.getLsbD_extractLsb']
  match i with
  | 0 => simp
  | 1 => simp
  | 2 => simp
  | i + 3 => simp [show i < 61 by omega, Nat.add_comm]

/-- The two masked forms the opcode table looks at: `K` alone, and `{K, OFF}` with CMD. -/
theorem and_transactionMask (T : TxnWord) :
    T &&& 0x800000000000000000 = txnWord (txnWrite T) 0 0 := by
  rw [show (0x800000000000000000 : TxnWord) = txnWord true 0 0 by decide]
  apply BitVec.eq_of_getLsbD_eq
  intro i hi
  rw [BitVec.getLsbD_and, txnWord_getLsbD, txnWord_getLsbD, txnWrite]
  split
  · simp
  · split
    · simp
    · simp [show i = 71 by omega]

theorem and_commandMask (T : TxnWord) :
    T &&& 0xFF0000000000000003 =
      txnWord (txnWrite T) (txnOff T) (cmdWord 0 false (cmdHi (txnData T)) (cmdLo (txnData T))) := by
  rw [show (0xFF0000000000000003 : TxnWord) = txnWord true 0x7F (cmdWord 0 false true true) by decide]
  apply BitVec.eq_of_getLsbD_eq
  intro i hi
  rw [BitVec.getLsbD_and, txnWord_getLsbD, txnWord_getLsbD, cmdWord_getLsbD, cmdWord_getLsbD, txnWrite, txnOff,
    cmdHi, cmdLo, txnData, BitVec.getLsbD_extractLsb', BitVec.getLsbD_extractLsb', BitVec.getLsbD_extractLsb']
  split
  · match i with
    | 0 => simp
    | 1 => simp
    | 2 => simp
    | i + 3 => simp
  · split
    · have h : (0x7F : BitVec 7).getLsbD (i - 64) = true := by
        have hi' : i - 64 < 7 := by omega
        generalize i - 64 = j at hi'
        interval_cases j <;> rfl
      rw [h]
      simp [show i - 64 < 7 by omega, show 64 + (i - 64) = i by omega]
    · simp [show i = 71 by omega]

/-- Two transaction words are equal when their fields are. -/
theorem txnWord_inj {k k' : Bool} {off off' : BitVec 7} {v v' : Word} :
    txnWord k off v = txnWord k' off' v' ↔ k = k' ∧ off = off' ∧ v = v' := by
  constructor
  · intro h
    exact ⟨by simpa using congrArg txnWrite h, by simpa using congrArg txnOff h, by simpa using congrArg txnData h⟩
  · rintro ⟨rfl, rfl, rfl⟩; rfl

/-- The nine bytes of a transaction word spell it (R66). -/
@[simp] theorem wordOfBytes_bytesOfWord (T : TxnWord) : wordOfBytes (bytesOfWord T) = .ok T := by
  have h : ∀ (a n : Nat), T.extractLsb' (8 * (n + 1)) (8 * a) ++ T.extractLsb' (8 * n) 8 =
      T.extractLsb' (8 * n) (8 * a + 8) := fun a n =>
    BitVec.extractLsb'_append_extractLsb'_eq_extractLsb' (by omega)
  have h7 := h 1 7
  have h6 := h 2 6
  have h5 := h 3 5
  have h4 := h 4 4
  have h3 := h 5 3
  have h2 := h 6 2
  have h1 := h 7 1
  have h0 := h 8 0
  simp only [bytesOfWord, wordOfBytes, txnByte]
  refine congrArg Except.ok ?_
  exact (congrArg (· ++ T.extractLsb' 0 8) ((congrArg (· ++ T.extractLsb' 8 8)
    ((congrArg (· ++ T.extractLsb' 16 8) ((congrArg (· ++ T.extractLsb' 24 8)
    ((congrArg (· ++ T.extractLsb' 32 8) ((congrArg (· ++ T.extractLsb' 40 8)
    ((congrArg (· ++ T.extractLsb' 48 8) h7).trans h6)).trans h5)).trans h4)).trans h3)).trans h2)).trans h1)).trans
    (h0.trans BitVec.extractLsb'_eq_self)

/-- A word of at most 72 bits decodes as itself (R62, R63). -/
@[simp] theorem decodeTableWord_of_le {nbits : Nat} (w : Nat) (h : nbits ≤ 72) :
    decodeTableWord nbits w = some (decode (tableWord nbits w)) := by
  simp [decodeTableWord, h, decodeBytes, Except.map, Except.toOption]

end Sys2Proof
end

