-- ==== Sys2Proof/Laws/State.lean ====
section
/-! SUPPORT. One lemma per field per update, for the engine's record and for the system's state; no later
proof unfolds a record update. -/

namespace Sys2Proof.Machine

/-! ### `Engine.setErr` -/

@[simp] theorem Engine.setErr_data0 (e : Engine) : (e.setErr).data0 = e.data0 := rfl
@[simp] theorem Engine.setErr_data1 (e : Engine) : (e.setErr).data1 = e.data1 := rfl
@[simp] theorem Engine.setErr_key0 (e : Engine) : (e.setErr).key0 = e.key0 := rfl
@[simp] theorem Engine.setErr_key1 (e : Engine) : (e.setErr).key1 = e.key1 := rfl
@[simp] theorem Engine.setErr_key2 (e : Engine) : (e.setErr).key2 = e.key2 := rfl
@[simp] theorem Engine.setErr_key3 (e : Engine) : (e.setErr).key3 = e.key3 := rfl
@[simp] theorem Engine.setErr_busy (e : Engine) : (e.setErr).busy = e.busy := rfl
@[simp] theorem Engine.setErr_done (e : Engine) : (e.setErr).done = e.done := rfl
@[simp] theorem Engine.setErr_err (e : Engine) : (e.setErr).err = true := rfl
@[simp] theorem Engine.setErr_mode (e : Engine) : (e.setErr).mode = e.mode := rfl
@[simp] theorem Engine.setErr_y (e : Engine) : (e.setErr).y = e.y := rfl
@[simp] theorem Engine.setErr_z (e : Engine) : (e.setErr).z = e.z := rfl
@[simp] theorem Engine.setErr_sum (e : Engine) : (e.setErr).sum = e.sum := rfl
@[simp] theorem Engine.setErr_iter (e : Engine) : (e.setErr).iter = e.iter := rfl

/-! ### `Engine.clearFlags` -/

@[simp] theorem Engine.clearFlags_data0 (e : Engine) : (e.clearFlags).data0 = e.data0 := rfl
@[simp] theorem Engine.clearFlags_data1 (e : Engine) : (e.clearFlags).data1 = e.data1 := rfl
@[simp] theorem Engine.clearFlags_key0 (e : Engine) : (e.clearFlags).key0 = e.key0 := rfl
@[simp] theorem Engine.clearFlags_key1 (e : Engine) : (e.clearFlags).key1 = e.key1 := rfl
@[simp] theorem Engine.clearFlags_key2 (e : Engine) : (e.clearFlags).key2 = e.key2 := rfl
@[simp] theorem Engine.clearFlags_key3 (e : Engine) : (e.clearFlags).key3 = e.key3 := rfl
@[simp] theorem Engine.clearFlags_busy (e : Engine) : (e.clearFlags).busy = e.busy := rfl
@[simp] theorem Engine.clearFlags_done (e : Engine) : (e.clearFlags).done = false := rfl
@[simp] theorem Engine.clearFlags_err (e : Engine) : (e.clearFlags).err = false := rfl
@[simp] theorem Engine.clearFlags_mode (e : Engine) : (e.clearFlags).mode = e.mode := rfl
@[simp] theorem Engine.clearFlags_y (e : Engine) : (e.clearFlags).y = e.y := rfl
@[simp] theorem Engine.clearFlags_z (e : Engine) : (e.clearFlags).z = e.z := rfl
@[simp] theorem Engine.clearFlags_sum (e : Engine) : (e.clearFlags).sum = e.sum := rfl
@[simp] theorem Engine.clearFlags_iter (e : Engine) : (e.clearFlags).iter = e.iter := rfl

/-! ### `Engine.start` -/

@[simp] theorem Engine.start_data0 (m : Mode) (e : Engine) : (Engine.start m e).data0 = e.data0 := rfl
@[simp] theorem Engine.start_data1 (m : Mode) (e : Engine) : (Engine.start m e).data1 = e.data1 := rfl
@[simp] theorem Engine.start_key0 (m : Mode) (e : Engine) : (Engine.start m e).key0 = e.key0 := rfl
@[simp] theorem Engine.start_key1 (m : Mode) (e : Engine) : (Engine.start m e).key1 = e.key1 := rfl
@[simp] theorem Engine.start_key2 (m : Mode) (e : Engine) : (Engine.start m e).key2 = e.key2 := rfl
@[simp] theorem Engine.start_key3 (m : Mode) (e : Engine) : (Engine.start m e).key3 = e.key3 := rfl
@[simp] theorem Engine.start_busy (m : Mode) (e : Engine) : (Engine.start m e).busy = true := rfl
@[simp] theorem Engine.start_done (m : Mode) (e : Engine) : (Engine.start m e).done = false := rfl
@[simp] theorem Engine.start_err (m : Mode) (e : Engine) : (Engine.start m e).err = e.err := rfl
@[simp] theorem Engine.start_mode (m : Mode) (e : Engine) : (Engine.start m e).mode = m := rfl
@[simp] theorem Engine.start_y (m : Mode) (e : Engine) : (Engine.start m e).y = e.data0 := rfl
@[simp] theorem Engine.start_z (m : Mode) (e : Engine) : (Engine.start m e).z = e.data1 := rfl
@[simp] theorem Engine.start_sum (m : Mode) (e : Engine) : (Engine.start m e).sum = sumInit m := rfl
@[simp] theorem Engine.start_iter (m : Mode) (e : Engine) : (Engine.start m e).iter = 0 := rfl

/-! ### `Engine.complete` -/

@[simp] theorem Engine.complete_data0 (e : Engine) : (e.complete).data0 = e.y := rfl
@[simp] theorem Engine.complete_data1 (e : Engine) : (e.complete).data1 = e.z := rfl
@[simp] theorem Engine.complete_key0 (e : Engine) : (e.complete).key0 = e.key0 := rfl
@[simp] theorem Engine.complete_key1 (e : Engine) : (e.complete).key1 = e.key1 := rfl
@[simp] theorem Engine.complete_key2 (e : Engine) : (e.complete).key2 = e.key2 := rfl
@[simp] theorem Engine.complete_key3 (e : Engine) : (e.complete).key3 = e.key3 := rfl
@[simp] theorem Engine.complete_busy (e : Engine) : (e.complete).busy = false := rfl
@[simp] theorem Engine.complete_done (e : Engine) : (e.complete).done = true := rfl
@[simp] theorem Engine.complete_err (e : Engine) : (e.complete).err = e.err := rfl
@[simp] theorem Engine.complete_mode (e : Engine) : (e.complete).mode = e.mode := rfl
@[simp] theorem Engine.complete_y (e : Engine) : (e.complete).y = e.y := rfl
@[simp] theorem Engine.complete_z (e : Engine) : (e.complete).z = e.z := rfl
@[simp] theorem Engine.complete_sum (e : Engine) : (e.complete).sum = e.sum := rfl
@[simp] theorem Engine.complete_iter (e : Engine) : (e.complete).iter = 0 := rfl

/-! ### `Engine.setWorking` -/

@[simp] theorem Engine.setWorking_data0 (e : Engine) (w : Working) : (e.setWorking w).data0 = e.data0 := rfl
@[simp] theorem Engine.setWorking_data1 (e : Engine) (w : Working) : (e.setWorking w).data1 = e.data1 := rfl
@[simp] theorem Engine.setWorking_key0 (e : Engine) (w : Working) : (e.setWorking w).key0 = e.key0 := rfl
@[simp] theorem Engine.setWorking_key1 (e : Engine) (w : Working) : (e.setWorking w).key1 = e.key1 := rfl
@[simp] theorem Engine.setWorking_key2 (e : Engine) (w : Working) : (e.setWorking w).key2 = e.key2 := rfl
@[simp] theorem Engine.setWorking_key3 (e : Engine) (w : Working) : (e.setWorking w).key3 = e.key3 := rfl
@[simp] theorem Engine.setWorking_busy (e : Engine) (w : Working) : (e.setWorking w).busy = e.busy := rfl
@[simp] theorem Engine.setWorking_done (e : Engine) (w : Working) : (e.setWorking w).done = e.done := rfl
@[simp] theorem Engine.setWorking_err (e : Engine) (w : Working) : (e.setWorking w).err = e.err := rfl
@[simp] theorem Engine.setWorking_mode (e : Engine) (w : Working) : (e.setWorking w).mode = e.mode := rfl
@[simp] theorem Engine.setWorking_y (e : Engine) (w : Working) : (e.setWorking w).y = w.y := rfl
@[simp] theorem Engine.setWorking_z (e : Engine) (w : Working) : (e.setWorking w).z = w.z := rfl
@[simp] theorem Engine.setWorking_sum (e : Engine) (w : Working) : (e.setWorking w).sum = w.sum := rfl
@[simp] theorem Engine.setWorking_iter (e : Engine) (w : Working) : (e.setWorking w).iter = e.iter := rfl

/-! ### `Engine.iterate` -/

@[simp] theorem Engine.iterate_data0 (e : Engine) : (e.iterate).data0 = e.data0 := rfl
@[simp] theorem Engine.iterate_data1 (e : Engine) : (e.iterate).data1 = e.data1 := rfl
@[simp] theorem Engine.iterate_key0 (e : Engine) : (e.iterate).key0 = e.key0 := rfl
@[simp] theorem Engine.iterate_key1 (e : Engine) : (e.iterate).key1 = e.key1 := rfl
@[simp] theorem Engine.iterate_key2 (e : Engine) : (e.iterate).key2 = e.key2 := rfl
@[simp] theorem Engine.iterate_key3 (e : Engine) : (e.iterate).key3 = e.key3 := rfl
@[simp] theorem Engine.iterate_busy (e : Engine) : (e.iterate).busy = e.busy := rfl
@[simp] theorem Engine.iterate_done (e : Engine) : (e.iterate).done = e.done := rfl
@[simp] theorem Engine.iterate_err (e : Engine) : (e.iterate).err = e.err := rfl
@[simp] theorem Engine.iterate_mode (e : Engine) : (e.iterate).mode = e.mode := rfl
@[simp] theorem Engine.iterate_y (e : Engine) : (e.iterate).y = (iterOnce e.mode e.key e.working).y := rfl
@[simp] theorem Engine.iterate_z (e : Engine) : (e.iterate).z = (iterOnce e.mode e.key e.working).z := rfl
@[simp] theorem Engine.iterate_sum (e : Engine) : (e.iterate).sum = (iterOnce e.mode e.key e.working).sum := rfl
@[simp] theorem Engine.iterate_iter (e : Engine) : (e.iterate).iter = e.iter + 1 := rfl

/-! ### Operands of an engine -/

@[simp] theorem Engine.working_setWorking (e : Engine) (w : Working) : (e.setWorking w).working = w := rfl
@[simp] theorem Engine.key_setWorking (e : Engine) (w : Working) : (e.setWorking w).key = e.key := rfl
@[simp] theorem Engine.working_iterate (e : Engine) : e.iterate.working = iterOnce e.mode e.key e.working := rfl
@[simp] theorem Engine.key_iterate (e : Engine) : e.iterate.key = e.key := rfl
@[simp] theorem Engine.key_complete (e : Engine) : e.complete.key = e.key := rfl
@[simp] theorem Engine.block_complete (e : Engine) : e.complete.block = (e.y, e.z) := rfl
@[simp] theorem Engine.key_setErr (e : Engine) : e.setErr.key = e.key := rfl
@[simp] theorem Engine.working_setErr (e : Engine) : e.setErr.working = e.working := rfl
@[simp] theorem Engine.key_clearFlags (e : Engine) : e.clearFlags.key = e.key := rfl
@[simp] theorem Engine.key_start (m : Mode) (e : Engine) : (Engine.start m e).key = e.key := rfl
@[simp] theorem Engine.working_start (m : Mode) (e : Engine) :
    (Engine.start m e).working = ⟨e.data0, e.data1, sumInit m⟩ := rfl

/-! ### `State.onEngine` -/

@[simp] theorem State.onEngine_eng (f : Engine → Engine) (s : State) : (s.onEngine f).eng = f s.eng := rfl
@[simp] theorem State.onEngine_rst (f : Engine → Engine) (s : State) : (s.onEngine f).rst = s.rst := rfl
@[simp] theorem State.onEngine_rdata (f : Engine → Engine) (s : State) : (s.onEngine f).rdata = s.rdata := rfl
@[simp] theorem State.onEngine_program (f : Engine → Engine) (s : State) : (s.onEngine f).program = s.program := rfl
@[simp] theorem State.onEngine_hostPc (f : Engine → Engine) (s : State) : (s.onEngine f).hostPc = s.hostPc := rfl
@[simp] theorem State.onEngine_vars (f : Engine → Engine) (s : State) : (s.onEngine f).vars = s.vars := rfl
@[simp] theorem State.onEngine_schedule (f : Engine → Engine) (s : State) : (s.onEngine f).schedule = s.schedule := rfl
@[simp] theorem State.onEngine_freeTurns (f : Engine → Engine) (s : State) : (s.onEngine f).freeTurns = s.freeTurns := rfl
@[simp] theorem State.onEngine_unit (f : Engine → Engine) (s : State) : (s.onEngine f).unit = s.unit := rfl

/-! ### `State.answer` -/

@[simp] theorem State.answer_eng (v : Word) (s : State) : (s.answer v).eng = s.eng := rfl
@[simp] theorem State.answer_rst (v : Word) (s : State) : (s.answer v).rst = s.rst := rfl
@[simp] theorem State.answer_rdata (v : Word) (s : State) : (s.answer v).rdata = some v := rfl
@[simp] theorem State.answer_program (v : Word) (s : State) : (s.answer v).program = s.program := rfl
@[simp] theorem State.answer_hostPc (v : Word) (s : State) : (s.answer v).hostPc = s.hostPc := rfl
@[simp] theorem State.answer_vars (v : Word) (s : State) : (s.answer v).vars = s.vars := rfl
@[simp] theorem State.answer_schedule (v : Word) (s : State) : (s.answer v).schedule = s.schedule := rfl
@[simp] theorem State.answer_freeTurns (v : Word) (s : State) : (s.answer v).freeTurns = s.freeTurns := rfl
@[simp] theorem State.answer_unit (v : Word) (s : State) : (s.answer v).unit = s.unit := rfl

/-! ### `State.takeTurn` -/

@[simp] theorem State.takeTurn_eng (s : State) : (s.takeTurn).eng = s.eng := rfl
@[simp] theorem State.takeTurn_rst (s : State) : (s.takeTurn).rst = s.rst := rfl
@[simp] theorem State.takeTurn_rdata (s : State) : (s.takeTurn).rdata = s.rdata := rfl
@[simp] theorem State.takeTurn_program (s : State) : (s.takeTurn).program = s.program := rfl
@[simp] theorem State.takeTurn_hostPc (s : State) : (s.takeTurn).hostPc = s.hostPc := rfl
@[simp] theorem State.takeTurn_vars (s : State) : (s.takeTurn).vars = s.vars := rfl
@[simp] theorem State.takeTurn_schedule (s : State) : (s.takeTurn).schedule = s.schedule.tail := rfl
@[simp] theorem State.takeTurn_unit (s : State) : (s.takeTurn).unit = s.unit := rfl

/-- A listed turn is taken off the schedule. -/
theorem State.takeTurn_of_listed {s : State} {t : Turn} {ts : List Turn} (h : s.schedule = t :: ts) :
    s.takeTurn = { s with schedule := ts } := by
  simp [State.takeTurn, h]

/-- With no turn listed, the free choice is made. -/
theorem State.takeTurn_of_free {s : State} (h : s.schedule = []) :
    s.takeTurn = { s with freeTurns := s.freeTurns + 1 } := by
  simp [State.takeTurn, h]

/-! ### `assertReset` -/

@[simp] theorem assertReset_eng (s : State) : (assertReset s).eng = Engine.reset := rfl
@[simp] theorem assertReset_rst (s : State) : (assertReset s).rst = true := rfl
@[simp] theorem assertReset_rdata (s : State) : (assertReset s).rdata = s.rdata := rfl
@[simp] theorem assertReset_program (s : State) : (assertReset s).program = s.program := rfl
@[simp] theorem assertReset_hostPc (s : State) : (assertReset s).hostPc = s.hostPc := rfl
@[simp] theorem assertReset_vars (s : State) : (assertReset s).vars = s.vars := rfl
@[simp] theorem assertReset_schedule (s : State) : (assertReset s).schedule = s.schedule := rfl
@[simp] theorem assertReset_freeTurns (s : State) : (assertReset s).freeTurns = s.freeTurns := rfl
@[simp] theorem assertReset_unit (s : State) : (assertReset s).unit = s.unit := rfl

/-! ### `releaseReset` -/

@[simp] theorem releaseReset_eng (s : State) : (releaseReset s).eng = s.eng := rfl
@[simp] theorem releaseReset_rst (s : State) : (releaseReset s).rst = false := rfl
@[simp] theorem releaseReset_rdata (s : State) : (releaseReset s).rdata = s.rdata := rfl
@[simp] theorem releaseReset_program (s : State) : (releaseReset s).program = s.program := rfl
@[simp] theorem releaseReset_hostPc (s : State) : (releaseReset s).hostPc = s.hostPc := rfl
@[simp] theorem releaseReset_vars (s : State) : (releaseReset s).vars = s.vars := rfl
@[simp] theorem releaseReset_schedule (s : State) : (releaseReset s).schedule = s.schedule := rfl
@[simp] theorem releaseReset_freeTurns (s : State) : (releaseReset s).freeTurns = s.freeTurns := rfl
@[simp] theorem releaseReset_unit (s : State) : (releaseReset s).unit = s.unit := rfl

/-! ### `engineTurn` -/

@[simp] theorem engineTurn_eng (s : State) : (engineTurn s).eng = s.eng.turn := rfl
@[simp] theorem engineTurn_rst (s : State) : (engineTurn s).rst = s.rst := rfl
@[simp] theorem engineTurn_rdata (s : State) : (engineTurn s).rdata = s.rdata := rfl
@[simp] theorem engineTurn_program (s : State) : (engineTurn s).program = s.program := rfl
@[simp] theorem engineTurn_hostPc (s : State) : (engineTurn s).hostPc = s.hostPc := rfl
@[simp] theorem engineTurn_vars (s : State) : (engineTurn s).vars = s.vars := rfl
@[simp] theorem engineTurn_schedule (s : State) : (engineTurn s).schedule = s.schedule := rfl
@[simp] theorem engineTurn_freeTurns (s : State) : (engineTurn s).freeTurns = s.freeTurns := rfl
@[simp] theorem engineTurn_unit (s : State) : (engineTurn s).unit = s.unit := rfl

/-! ### `hostBranch` -/

@[simp] theorem hostBranch_eng (h : Nat) (b : Fin 64) (v : Bool) (l : Nat) (s : State) : (hostBranch h b v l s).eng = s.eng := rfl
@[simp] theorem hostBranch_rst (h : Nat) (b : Fin 64) (v : Bool) (l : Nat) (s : State) : (hostBranch h b v l s).rst = s.rst := rfl
@[simp] theorem hostBranch_rdata (h : Nat) (b : Fin 64) (v : Bool) (l : Nat) (s : State) : (hostBranch h b v l s).rdata = s.rdata := rfl
@[simp] theorem hostBranch_program (h : Nat) (b : Fin 64) (v : Bool) (l : Nat) (s : State) : (hostBranch h b v l s).program = s.program := rfl
@[simp] theorem hostBranch_hostPc (h : Nat) (b : Fin 64) (v : Bool) (l : Nat) (s : State) : (hostBranch h b v l s).hostPc = if (getVar s.vars h).getLsbD b = v then l else s.hostPc + 1 := rfl
@[simp] theorem hostBranch_vars (h : Nat) (b : Fin 64) (v : Bool) (l : Nat) (s : State) : (hostBranch h b v l s).vars = s.vars := rfl
@[simp] theorem hostBranch_schedule (h : Nat) (b : Fin 64) (v : Bool) (l : Nat) (s : State) : (hostBranch h b v l s).schedule = s.schedule := rfl
@[simp] theorem hostBranch_freeTurns (h : Nat) (b : Fin 64) (v : Bool) (l : Nat) (s : State) : (hostBranch h b v l s).freeTurns = s.freeTurns := rfl
@[simp] theorem hostBranch_unit (h : Nat) (b : Fin 64) (v : Bool) (l : Nat) (s : State) : (hostBranch h b v l s).unit = s.unit := rfl

/-! ### `hostIrqBranch` -/

@[simp] theorem hostIrqBranch_eng (v : Bool) (l : Nat) (s : State) : (hostIrqBranch v l s).eng = s.eng := rfl
@[simp] theorem hostIrqBranch_rst (v : Bool) (l : Nat) (s : State) : (hostIrqBranch v l s).rst = s.rst := rfl
@[simp] theorem hostIrqBranch_rdata (v : Bool) (l : Nat) (s : State) : (hostIrqBranch v l s).rdata = s.rdata := rfl
@[simp] theorem hostIrqBranch_program (v : Bool) (l : Nat) (s : State) : (hostIrqBranch v l s).program = s.program := rfl
@[simp] theorem hostIrqBranch_hostPc (v : Bool) (l : Nat) (s : State) : (hostIrqBranch v l s).hostPc = if s.eng.irq = v then l else s.hostPc + 1 := rfl
@[simp] theorem hostIrqBranch_vars (v : Bool) (l : Nat) (s : State) : (hostIrqBranch v l s).vars = s.vars := rfl
@[simp] theorem hostIrqBranch_schedule (v : Bool) (l : Nat) (s : State) : (hostIrqBranch v l s).schedule = s.schedule := rfl
@[simp] theorem hostIrqBranch_freeTurns (v : Bool) (l : Nat) (s : State) : (hostIrqBranch v l s).freeTurns = s.freeTurns := rfl
@[simp] theorem hostIrqBranch_unit (v : Bool) (l : Nat) (s : State) : (hostIrqBranch v l s).unit = s.unit := rfl

/-! ### `State.retire` and `State.holdReset` -/

@[simp] theorem State.retire_eng (d : Option Nat) (s : State) : (s.retire d).eng = s.eng := rfl
@[simp] theorem State.retire_rst (d : Option Nat) (s : State) : (s.retire d).rst = s.rst := rfl
@[simp] theorem State.retire_rdata (d : Option Nat) (s : State) : (s.retire d).rdata = s.rdata := rfl
@[simp] theorem State.retire_program (d : Option Nat) (s : State) : (s.retire d).program = s.program := rfl
@[simp] theorem State.retire_hostPc (d : Option Nat) (s : State) : (s.retire d).hostPc = s.hostPc + 1 := rfl
@[simp] theorem State.retire_schedule (d : Option Nat) (s : State) : (s.retire d).schedule = s.schedule := rfl
@[simp] theorem State.retire_freeTurns (d : Option Nat) (s : State) : (s.retire d).freeTurns = s.freeTurns := rfl
@[simp] theorem State.retire_unit (d : Option Nat) (s : State) : (s.retire d).unit = s.unit := rfl

@[simp] theorem State.holdReset_of_released {s : State} (h : s.rst = false) : s.holdReset = s := by
  simp [State.holdReset, h]

@[simp] theorem State.holdReset_of_asserted {s : State} (h : s.rst = true) :
    s.holdReset = { s with eng := Engine.reset } := by
  simp [State.holdReset, h]

@[simp] theorem State.holdReset_rst (s : State) : s.holdReset.rst = s.rst := by
  unfold State.holdReset; split <;> rfl
@[simp] theorem State.holdReset_rdata (s : State) : s.holdReset.rdata = s.rdata := by
  unfold State.holdReset; split <;> rfl
@[simp] theorem State.holdReset_program (s : State) : s.holdReset.program = s.program := by
  unfold State.holdReset; split <;> rfl
@[simp] theorem State.holdReset_hostPc (s : State) : s.holdReset.hostPc = s.hostPc := by
  unfold State.holdReset; split <;> rfl
@[simp] theorem State.holdReset_vars (s : State) : s.holdReset.vars = s.vars := by
  unfold State.holdReset; split <;> rfl
@[simp] theorem State.holdReset_schedule (s : State) : s.holdReset.schedule = s.schedule := by
  unfold State.holdReset; split <;> rfl
@[simp] theorem State.holdReset_freeTurns (s : State) : s.holdReset.freeTurns = s.freeTurns := by
  unfold State.holdReset; split <;> rfl
@[simp] theorem State.holdReset_unit (s : State) : s.holdReset.unit = s.unit := by
  unfold State.holdReset; split <;> rfl

end Sys2Proof.Machine
end

