-- ==== Sys2Proof/Laws/Ops.lean ====
section
/-! SUPPORT. What each shared operation of the engine can do, said once; the provers cite these instead of
unfolding the operations. -/

namespace Sys2Proof.Machine

/-! ### Writes that are refused while busy (R95, R112, R113) -/

@[simp] theorem Engine.whenIdle_of_busy (f : Engine → Engine) {e : Engine} (h : e.busy = true) :
    Engine.whenIdle f e = e.setErr := by
  simp [Engine.whenIdle, h]

@[simp] theorem Engine.whenIdle_of_idle (f : Engine → Engine) {e : Engine} (h : e.busy = false) :
    Engine.whenIdle f e = f e := by
  simp [Engine.whenIdle, h]

/-! ### CTRL writes (R89) -/

@[simp] theorem Engine.command_false (f : Engine → Engine) (e : Engine) : Engine.command false f e = f e := rfl
@[simp] theorem Engine.command_true (f : Engine → Engine) (e : Engine) :
    Engine.command true f e = f e.clearFlags := rfl

@[simp] theorem Engine.ctrl_of_busy (c : Bool) (f : Engine → Engine) {e : Engine} (h : e.busy = true) :
    Engine.ctrl c f e = e.setErr := by
  simp [Engine.ctrl, h]

@[simp] theorem Engine.ctrl_of_idle (c : Bool) (f : Engine → Engine) {e : Engine} (h : e.busy = false) :
    Engine.ctrl c f e = Engine.command c f e := by
  simp [Engine.ctrl, h]

/-- Every command row is `CtrlWrite` with its own CMD (R61). -/
theorem Engine.ctrlWrite_cmdWord (g : BitVec 61) (c h l : Bool) :
    Engine.ctrlWrite (cmdWord g c h l) = Engine.ctrl c (Engine.cmdEffect h l) := by
  simp [Engine.ctrlWrite]

/-! ### The engine's step (R97, R98) -/

/-- An engine step before the 64th iteration. -/
theorem Engine.engineStep_of_more {e : Engine} (h : e.iter + 1 ≠ 64) : e.engineStep = e.iterate :=
  if_neg h

/-- The step of the 64th iteration completes the operation. -/
theorem Engine.engineStep_of_last {e : Engine} (h : e.iter + 1 = 64) : e.engineStep = e.iterate.complete :=
  if_pos h

@[simp] theorem Engine.turn_of_busy {e : Engine} (h : e.busy = true) : e.turn = e.engineStep := by
  simp [Engine.turn, h]

@[simp] theorem Engine.turn_of_idle {e : Engine} (h : e.busy = false) : e.turn = e := by
  simp [Engine.turn, h]

/-- Whatever an engine step does, it leaves the key, MODE and ERR alone and performs one iteration. -/
theorem Engine.engineStep_frame (e : Engine) :
    e.engineStep.key = e.key ∧ e.engineStep.mode = e.mode ∧ e.engineStep.err = e.err ∧
      e.engineStep.working = iterOnce e.mode e.key e.working := by
  by_cases h : e.iter + 1 = 64
  · rw [Engine.engineStep_of_last h]; exact ⟨rfl, rfl, rfl, rfl⟩
  · rw [Engine.engineStep_of_more h]; exact ⟨rfl, rfl, rfl, rfl⟩

/-! ### Reads (R103) -/

@[simp] theorem Engine.readData_of_busy (r : Word) {e : Engine} (h : e.busy = true) : e.readData r = 0 := by
  simp [Engine.readData, h]

@[simp] theorem Engine.readData_of_idle (r : Word) {e : Engine} (h : e.busy = false) : e.readData r = r := by
  simp [Engine.readData, h]

/-- The offsets of the named slots are aligned and select their slot (R37). -/
@[simp] theorem offSlot_offset (t : Slot) : offSlot t.offset = t := by
  cases t with
  | reserved n => revert n; decide
  | _ => decide

@[simp] theorem offAligned_offset (t : Slot) : offAligned t.offset = true := by
  cases t with
  | reserved n => revert n; decide
  | _ => decide

/-- An aligned offset is its slot's (R37). -/
theorem offset_offSlot {off : BitVec 7} (h : offAligned off = true) : (offSlot off).offset = off := by
  revert off; decide

theorem Engine.regRead_offset (e : Engine) (t : Slot) : e.regRead t.offset = e.readSlot t := by
  simp [Engine.regRead]

theorem Engine.regRead_misaligned (e : Engine) {off : BitVec 7} (h : offAligned off = false) : e.regRead off = 0 := by
  simp [Engine.regRead, h]

theorem Engine.regWrite_offset (t : Slot) (v : Word) (e : Engine) :
    Engine.regWrite t.offset v e = Engine.writeSlot v t e := by
  simp [Engine.regWrite]

theorem Engine.regWrite_misaligned {off : BitVec 7} (v : Word) (e : Engine) (h : offAligned off = false) :
    Engine.regWrite off v e = e.setErr := by
  simp [Engine.regWrite, h]

/-! The named slots by their offsets (R37). -/

@[simp] theorem Engine.regWrite_ctrl (v : Word) (e : Engine) : Engine.regWrite 0x00 v e = Engine.ctrlWrite v e :=
  Engine.regWrite_offset .ctrl v e
@[simp] theorem Engine.regWrite_status (v : Word) (e : Engine) : Engine.regWrite 0x08 v e = e.setErr :=
  Engine.regWrite_offset .status v e
@[simp] theorem Engine.regWrite_data0 (v : Word) (e : Engine) :
    Engine.regWrite 0x10 v e = Engine.whenIdle (fun e => { e with data0 := v }) e :=
  Engine.regWrite_offset .data0 v e
@[simp] theorem Engine.regWrite_data1 (v : Word) (e : Engine) :
    Engine.regWrite 0x18 v e = Engine.whenIdle (fun e => { e with data1 := v }) e :=
  Engine.regWrite_offset .data1 v e
@[simp] theorem Engine.regWrite_key0 (v : Word) (e : Engine) :
    Engine.regWrite 0x20 v e = Engine.whenIdle (fun e => { e with key0 := v }) e :=
  Engine.regWrite_offset .key0 v e
@[simp] theorem Engine.regWrite_key1 (v : Word) (e : Engine) :
    Engine.regWrite 0x28 v e = Engine.whenIdle (fun e => { e with key1 := v }) e :=
  Engine.regWrite_offset .key1 v e
@[simp] theorem Engine.regWrite_key2 (v : Word) (e : Engine) :
    Engine.regWrite 0x30 v e = Engine.whenIdle (fun e => { e with key2 := v }) e :=
  Engine.regWrite_offset .key2 v e
@[simp] theorem Engine.regWrite_key3 (v : Word) (e : Engine) :
    Engine.regWrite 0x38 v e = Engine.whenIdle (fun e => { e with key3 := v }) e :=
  Engine.regWrite_offset .key3 v e

/-- What an accepted or refused write can do to the engine: CTRL commands are `ctrlWrite`, a DATA or KEY
write while idle stores one word, and everything else sets ERR. -/
theorem Engine.regWrite_cases (off : BitVec 7) (v : Word) (e : Engine) :
    (off = 0 ∧ Engine.regWrite off v e = Engine.ctrlWrite v e) ∨
    (e.busy = false ∧
      (off = 0x10 ∧ Engine.regWrite off v e = { e with data0 := v } ∨
       off = 0x18 ∧ Engine.regWrite off v e = { e with data1 := v } ∨
       off = 0x20 ∧ Engine.regWrite off v e = { e with key0 := v } ∨
       off = 0x28 ∧ Engine.regWrite off v e = { e with key1 := v } ∨
       off = 0x30 ∧ Engine.regWrite off v e = { e with key2 := v } ∨
       off = 0x38 ∧ Engine.regWrite off v e = { e with key3 := v })) ∨
    (off ≠ 0 ∧ (e.busy = true ∨ off ∉ [0x10, 0x18, 0x20, 0x28, 0x30, 0x38]) ∧
      Engine.regWrite off v e = e.setErr) := by
  cases ha : offAligned off with
  | false =>
    have hm : ∀ off : BitVec 7, offAligned off = false →
        off ≠ 0 ∧ off ∉ [0x10, 0x18, 0x20, 0x28, 0x30, 0x38] := by decide
    exact .inr (.inr ⟨(hm off ha).1, .inr (hm off ha).2, Engine.regWrite_misaligned v e ha⟩)
  | true =>
    obtain ⟨t, rfl⟩ : ∃ t : Slot, t.offset = off := ⟨offSlot off, offset_offSlot ha⟩
    have hne : ∀ n : BitVec 3, (Slot.reserved n).offset ≠ 0 ∧
        (Slot.reserved n).offset ∉ [0x10, 0x18, 0x20, 0x28, 0x30, 0x38] := by decide
    rw [Engine.regWrite_offset]
    cases t with
    | ctrl => exact .inl ⟨rfl, rfl⟩
    | status => exact .inr (.inr ⟨by decide, .inr (by decide), rfl⟩)
    | reserved n => exact .inr (.inr ⟨(hne n).1, .inr (hne n).2, rfl⟩)
    | _ => cases hb : e.busy <;> simp [Engine.writeSlot, Slot.offset, Engine.whenIdle, hb]

/-! ### The meanings -/

@[simp] theorem execRegRead_eq (off : BitVec 7) (w : Word) (s : State) :
    execRegRead off w s = .next (s.answer (s.eng.regRead off)) := rfl
@[simp] theorem execRegWrite_eq (off : BitVec 7) (v : Word) (s : State) :
    execRegWrite off v s = .next (s.onEngine (Engine.regWrite off v)) := rfl
@[simp] theorem execNop_eq (c : Bool) (g : BitVec 61) (s : State) :
    execNop c g s = .next (s.onEngine (Engine.ctrl c id)) := rfl
@[simp] theorem execEncrypt_eq (c : Bool) (g : BitVec 61) (s : State) :
    execEncrypt c g s = .next (s.onEngine (Engine.ctrl c (Engine.start .encrypt))) := rfl
@[simp] theorem execDecrypt_eq (c : Bool) (g : BitVec 61) (s : State) :
    execDecrypt c g s = .next (s.onEngine (Engine.ctrl c (Engine.start .decrypt))) := rfl
@[simp] theorem execCmdReserved_eq (c : Bool) (g : BitVec 61) (s : State) :
    execCmdReserved c g s = .next (s.onEngine (Engine.ctrl c Engine.setErr)) := rfl

/-- What an instruction does to the engine: a read nothing, a write or command its own transition. -/
def engineEffect : Instr → Engine → Engine
  | .regRead _ _ => id
  | .regWrite off v => Engine.regWrite off v
  | .nop c _ => Engine.ctrl c id
  | .encrypt c _ => Engine.ctrl c (Engine.start .encrypt)
  | .decrypt c _ => Engine.ctrl c (Engine.start .decrypt)
  | .cmdReserved c _ => Engine.ctrl c Engine.setErr

/-- What an instruction leaves on the response lines: a read its answer, anything else nothing new. -/
def response : Instr → State → Option Word
  | .regRead off _, s => some (s.eng.regRead off)
  | .regWrite _ _, s => s.rdata
  | .nop _ _, s => s.rdata
  | .encrypt _ _, s => s.rdata
  | .decrypt _ _, s => s.rdata
  | .cmdReserved _ _, s => s.rdata

/-- All an instruction can do: change the engine as its effect says, and the response lines. -/
theorem exec_eq (i : Instr) (s : State) :
    exec i s = .next { s with eng := engineEffect i s.eng, rdata := response i s } := by
  cases i <;> rfl

/-- What the instruction of a transaction word can do, by `K` alone (R54, R61): a read only answers, and a
write is `RegWrite`, the command rows among them. -/
theorem exec_decode (T : TxnWord) (s : State) :
    exec (decode T) s =
      if txnWrite T then .next (s.onEngine (Engine.regWrite (txnOff T) (txnData T)))
      else .next (s.answer (s.eng.regRead (txnOff T))) := by
  unfold decode
  split
  · split
    · rename_i h
      rw [h, show Engine.regWrite 0 (txnData T) = Engine.ctrlWrite (txnData T) from rfl]
      unfold decodeCommand Engine.ctrlWrite
      split <;> rename_i hh hl <;> rw [hh, hl] <;> rfl
    · rfl
  · rfl

/-- The same on the engine alone. -/
theorem engineEffect_decode (T : TxnWord) (e : Engine) :
    engineEffect (decode T) e = if txnWrite T then Engine.regWrite (txnOff T) (txnData T) e else e := by
  unfold decode
  split
  · split
    · rename_i h
      rw [h, Engine.regWrite_ctrl]
      unfold decodeCommand Engine.ctrlWrite
      split <;> rename_i hh hl <;> rw [hh, hl] <;> rfl
    · rfl
  · rfl

/-- A write and the flags: while busy only ERR rises; while idle a write at another offset than CTRL's neither
starts an operation nor clears a flag. -/
theorem Engine.regWrite_flags (off : BitVec 7) (v : Word) (e : Engine) :
    (e.busy = true ∧ (Engine.regWrite off v e).busy = true ∧ (Engine.regWrite off v e).done = e.done ∧
      (Engine.regWrite off v e).err = true) ∨
    (e.busy = false ∧ off = 0 ∧ Engine.regWrite off v e = Engine.ctrlWrite v e) ∨
    (e.busy = false ∧ off ≠ 0 ∧ (Engine.regWrite off v e).busy = false ∧
      (Engine.regWrite off v e).done = e.done ∧ (e.err = true → (Engine.regWrite off v e).err = true)) := by
  rcases Engine.regWrite_cases off v e with ⟨h0, he⟩ | ⟨hb, hc⟩ | ⟨h0, _, he⟩
  · cases hb : e.busy
    · exact .inr (.inl ⟨rfl, h0, he⟩)
    · left; rw [he]; simp [Engine.ctrlWrite, hb]
  · have hne : off ≠ 0 := by rcases hc with ⟨rfl, _⟩ | ⟨rfl, _⟩ | ⟨rfl, _⟩ | ⟨rfl, _⟩ | ⟨rfl, _⟩ | ⟨rfl, _⟩ <;> decide
    refine .inr (.inr ⟨hb, hne, ?_⟩)
    rcases hc with ⟨_, he⟩ | ⟨_, he⟩ | ⟨_, he⟩ | ⟨_, he⟩ | ⟨_, he⟩ | ⟨_, he⟩ <;> rw [he] <;> exact ⟨hb, rfl, id⟩
  · cases hb : e.busy
    · exact .inr (.inr ⟨rfl, h0, by rw [he]; exact ⟨hb, rfl, fun _ => rfl⟩⟩)
    · left; rw [he]; exact ⟨rfl, hb, rfl, rfl⟩

/-- CMD as a two-bit number (R55). -/
theorem cmd_eq_iff (C : Word) (n : BitVec 2) :
    C.extractLsb' 0 2 = n ↔ cmdHi C = n.getLsbD 1 ∧ cmdLo C = n.getLsbD 0 := by
  have h : C.extractLsb' 0 2 = BitVec.ofBool (cmdHi C) ++ BitVec.ofBool (cmdLo C) := by
    apply BitVec.eq_of_getLsbD_eq
    intro i hi
    rw [BitVec.getLsbD_append]
    match i with
    | 0 => simp [cmdLo]
    | 1 => simp [cmdHi]
  rw [h]
  cases cmdHi C <;> cases cmdLo C <;> revert n <;> decide

/-- Each command's effect is `CtrlWrite` or `setErr`: an engine after an instruction is the engine before it
with ERR set, or the result of an accepted transition. -/
theorem engineEffect_of_busy (i : Instr) {e : Engine} (h : e.busy = true) :
    engineEffect i e = e ∨ engineEffect i e = e.setErr := by
  cases i with
  | regRead off w => exact .inl rfl
  | regWrite off v =>
    rcases Engine.regWrite_cases off v e with ⟨_, he⟩ | ⟨hi, _⟩ | ⟨_, _, he⟩
    · exact .inr (he.trans (by simp [Engine.ctrlWrite, h]))
    · simp [h] at hi
    · exact .inr he
  | _ => exact .inr (by simp [engineEffect, h])

end Sys2Proof.Machine
end

