-- ==== Sys2Proof/Laws/HostAgent.lean ====
section
/-! SUPPORT. The host's variables (read after write, and the canonical form), the windows and the host's turn. -/

namespace Sys2Proof.Machine

/-- A variable numbered below the whole list is 0. -/
theorem getVar_of_varsFrom {lo : Nat} {vs : List (Nat × Word)} (h : varsFrom lo vs = true) {n : Nat} (hn : n < lo) :
    getVar vs n = 0 := by
  induction vs generalizing lo with
  | nil => rfl
  | cons p rest ih =>
    obtain ⟨k, v⟩ := p
    simp only [varsFrom, Bool.and_eq_true, decide_eq_true_eq] at h
    rw [getVar, if_neg (by omega)]
    exact ih h.2 (by omega)

/-- The canonical form may start lower. -/
theorem varsFrom_mono {lo lo' : Nat} {vs : List (Nat × Word)} (h : varsFrom lo vs = true) (hl : lo' ≤ lo) :
    varsFrom lo' vs = true := by
  cases vs with
  | nil => rfl
  | cons p rest =>
    obtain ⟨k, v⟩ := p
    simp only [varsFrom, Bool.and_eq_true, decide_eq_true_eq] at h ⊢
    exact ⟨⟨by omega, h.1.2⟩, h.2⟩

/-- A write to one variable leaves every other alone. -/
theorem getVar_setVar_of_ne (vs : List (Nat × Word)) {n m : Nat} (w : Word) (hne : m ≠ n) :
    getVar (setVar vs n w) m = getVar vs m := by
  induction vs with
  | nil => unfold setVar; split <;> simp [getVar, hne]
  | cons p rest ih =>
    obtain ⟨k, v⟩ := p
    unfold setVar
    split
    · split <;> simp [getVar, hne]
    · split
      · subst k
        split <;> simp [getVar, hne]
      · simp [getVar, ih]

/-- A variable reads as what was last written to it. -/
theorem getVar_setVar_same {lo : Nat} {vs : List (Nat × Word)} (h : varsFrom lo vs = true) (n : Nat) (w : Word) :
    getVar (setVar vs n w) n = w := by
  induction vs generalizing lo with
  | nil => unfold setVar; split <;> simp_all [getVar]
  | cons p rest ih =>
    obtain ⟨k, v⟩ := p
    simp only [varsFrom, Bool.and_eq_true, decide_eq_true_eq] at h
    unfold setVar
    split
    · rename_i hlt
      split
      · rename_i hw
        rw [hw, getVar, if_neg (by omega)]
        exact getVar_of_varsFrom h.2 (by omega)
      · simp [getVar]
    · split
      · rename_i hk
        split
        · rename_i hw
          rw [hw]
          exact getVar_of_varsFrom h.2 (by omega)
        · simp [getVar]
      · rename_i hk
        rw [getVar, if_neg hk]
        exact ih h.2

/-- A write keeps the canonical form. -/
theorem varsFrom_setVar {lo n : Nat} {vs : List (Nat × Word)} (w : Word) (h : varsFrom lo vs = true) (hn : lo ≤ n) :
    varsFrom lo (setVar vs n w) = true := by
  induction vs generalizing lo with
  | nil => unfold setVar; split <;> simp_all [varsFrom]
  | cons p rest ih =>
    obtain ⟨k, v⟩ := p
    have h' := h
    simp only [varsFrom, Bool.and_eq_true, decide_eq_true_eq] at h
    unfold setVar
    split
    · split
      · exact h'
      · simp_all [varsFrom]
    · split
      · split
        · exact varsFrom_mono h.2 (by omega)
        · simp_all [varsFrom]
      · rename_i hk
        simp only [varsFrom, Bool.and_eq_true, decide_eq_true_eq]
        exact ⟨h.1, ih h.2 (by omega)⟩

theorem varsWf_setVar {vs : List (Nat × Word)} (n : Nat) (w : Word) (h : varsWf vs = true) :
    varsWf (setVar vs n w) = true :=
  varsFrom_setVar w h (Nat.zero_le n)

/-- The response of a transaction keeps the host variables' canonical form. -/
theorem State.retire_varsWf (d : Option Nat) {s : State} (h : varsWf s.vars = true) :
    varsWf (s.retire d).vars = true := by
  unfold State.retire
  dsimp only
  split
  · exact varsWf_setVar _ _ h
  · exact h

/-! ### The windows -/

/-- The windows of a platform's engines do not overlap. -/
theorem engineBase_le {m n : Nat} (h : m < n) : Config.engineBase m + 0x80 ≤ Config.engineBase n := by
  induction n with
  | zero => omega
  | succ n ih =>
    rw [Config.engineBase]
    by_cases hn : m = n
    · subst hn; omega
    · have := ih (by omega)
      omega

/-! ### The host's turn -/

@[simp] theorem mapNext_next (f : State → State) (s : State) : mapNext f (.next s) = .next (f s) := rfl
@[simp] theorem mapNext_fault (f : State → State) (r : Fault) : mapNext f (.fault r) = .fault r := rfl
@[simp] theorem mapNext_refused (f : State → State) (r : Refusal) : mapNext f (.refused r) = .refused r := rfl

/-- All a transaction can do (`exec_eq`), and the host's side of it. -/
theorem issueTxn_eq (T : TxnWord) (d : Option Nat) (s : State) :
    issueTxn T d s = .next (State.retire d { s with
      eng := engineEffect (decode T) s.eng, rdata := response (decode T) { s with rdata := none } }) := by
  rw [issueTxn, exec_eq, mapNext_next]

/-- All the host's turn can do, where it answers a next state: nothing, a branch on a variable or on `irq`, or
one transaction. -/
theorem hostTurn_cases {s t : State} (h : hostTurn s = .next t) :
    t = s ∨ (∃ n b v l, t = hostBranch n b v l s) ∨ (∃ v l, t = hostIrqBranch v l s) ∨
      ∃ T d, issueTxn T d s = .next t := by
  unfold hostTurn at h
  split at h
  · rename_i op _
    cases op with
    | issue T d => exact .inr (.inr (.inr ⟨T, d, h⟩))
    | access w a n v d =>
      unfold hostOp at h
      dsimp only at h
      split at h
      · exact .inr (.inr (.inr ⟨_, d, h⟩))
      · cases h
    | ifGoto n b v l =>
      cases h
      exact .inr (.inl ⟨n, b, v, l, rfl⟩)
    | ifIrq v l =>
      cases h
      exact .inr (.inr (.inl ⟨v, l, rfl⟩))
  · cases h; exact .inl rfl

end Sys2Proof.Machine
end

