-- ==== Sys2Proof/Laws/PerInstr.lean ====
section
/-! SUPPORT. Facts proved once per instruction. Family RowMatch: the word an instruction is encoded as
belongs to its row of spec/opcode_table.json (the table's own mask and match). -/

namespace Sys2Proof.Laws.RowMatch

/-- A well-formed instruction's word has the bits its opcode-table row asks for. -/
def Statement (i : Instr) : Prop := i.wf = true → i.row.matchesWord (encode i) = true

theorem regRead (off : BitVec 7) (wdata : Word) : Statement (.regRead off wdata) := by
  intro _
  show (txnWord false off wdata &&& 0x800000000000000000 == rowRegRead.value) = true
  rw [and_transactionMask, txnWrite_txnWord]
  decide

theorem regWrite (off : BitVec 7) (v : Word) : Statement (.regWrite off v) := by
  intro _
  show (txnWord true off v &&& 0x800000000000000000 == rowRegWrite.value) = true
  rw [and_transactionMask, txnWrite_txnWord]
  decide

theorem nop (clr : Bool) (ignored : BitVec 61) : Statement (.nop clr ignored) := by
  intro _
  show (txnWord true 0 (cmdWord ignored clr false false) &&& 0xFF0000000000000003 == rowNop.value) = true
  rw [and_commandMask, txnWrite_txnWord, txnOff_txnWord, txnData_txnWord, cmdHi_cmdWord,
    cmdLo_cmdWord]
  decide

theorem encrypt (clr : Bool) (ignored : BitVec 61) : Statement (.encrypt clr ignored) := by
  intro _
  show (txnWord true 0 (cmdWord ignored clr false true) &&& 0xFF0000000000000003 == rowEncrypt.value) = true
  rw [and_commandMask, txnWrite_txnWord, txnOff_txnWord, txnData_txnWord, cmdHi_cmdWord,
    cmdLo_cmdWord]
  decide

theorem decrypt (clr : Bool) (ignored : BitVec 61) : Statement (.decrypt clr ignored) := by
  intro _
  show (txnWord true 0 (cmdWord ignored clr true false) &&& 0xFF0000000000000003 == rowDecrypt.value) = true
  rw [and_commandMask, txnWrite_txnWord, txnOff_txnWord, txnData_txnWord, cmdHi_cmdWord,
    cmdLo_cmdWord]
  decide

theorem cmdReserved (clr : Bool) (ignored : BitVec 61) : Statement (.cmdReserved clr ignored) := by
  intro _
  show (txnWord true 0 (cmdWord ignored clr true true) &&& 0xFF0000000000000003 == rowCmdReserved.value) = true
  rw [and_commandMask, txnWrite_txnWord, txnOff_txnWord, txnData_txnWord, cmdHi_cmdWord,
    cmdLo_cmdWord]
  decide

end Sys2Proof.Laws.RowMatch
end

