-- ==== Sys2Proof/Laws/System.lean ====
section
/-! SUPPORT. All a step can do (the inversion lemma), that a free choice of turn is a listed turn, and runs. -/

namespace Sys2Proof.Machine

/-- `step` is the system's step. -/
theorem step_eq (s : State) : step s = systemStep s := rfl

@[simp] theorem State.takeTurn_holdReset (s : State) : s.holdReset.takeTurn = s.takeTurn.holdReset := by
  cases h : s.rst <;> simp [State.holdReset, State.takeTurn, h]

/-- Whose turn it is does not hang on the engine, so holding it in reset leaves it as it is. -/
@[simp] theorem State.turn_holdReset (s : State) : s.holdReset.turn = s.turn := by simp [State.turn]

/-- A listed turn comes next. -/
theorem State.turn_of_listed {s : State} {t : Turn} {ts : List Turn} (h : s.schedule = t :: ts) : s.turn = t := by
  simp [State.turn, h]

/-- A step with the pin released. -/
theorem systemStep_of_released {s : State} (h : s.rst = false) :
    systemStep s = mapNext State.holdReset (performTurn s.turn s.takeTurn) := by
  simp [systemStep, h]

/-- The engine's turn, with the pin released. -/
theorem systemStep_of_engine {s : State} (hr : s.rst = false) (ht : s.turn = .engine) :
    systemStep s = .next { s.takeTurn with eng := s.eng.turn } := by
  rw [systemStep_of_released hr, ht]
  simp only [performTurn, mapNext_next]
  rw [State.holdReset_of_released (by exact hr)]
  rfl

/-- The host's turn on one transaction, with the pin released. -/
theorem systemStep_of_issue {s : State} (hr : s.rst = false) (ht : s.turn = .host) {T : TxnWord} {d : Option Nat}
    (hp : s.program[s.hostPc]? = some (.issue T d)) :
    systemStep s = .next (State.retire d { s.takeTurn with
      eng := engineEffect (decode T) s.eng
      rdata := response (decode T) { s.takeTurn with rdata := none } }) := by
  have hop : hostTurn s.takeTurn = issueTxn T d s.takeTurn := by
    simp only [hostTurn, State.takeTurn_program, State.takeTurn_hostPc, hp, hostOp]
  rw [systemStep_of_released hr, ht]
  simp only [performTurn, hop, issueTxn_eq, mapNext_next]
  rw [State.holdReset_of_released (by exact hr)]
  rfl

/-- The host's turn on a branch, with the pin released. -/
theorem systemStep_of_branch {s : State} (hr : s.rst = false) (ht : s.turn = .host) {h : Nat} {b : Fin 64} {v : Bool}
    {l : Nat} (hp : s.program[s.hostPc]? = some (.ifGoto h b v l)) :
    systemStep s = .next (hostBranch h b v l s.takeTurn) := by
  rw [systemStep_of_released hr, ht]
  simp only [performTurn, hostTurn, State.takeTurn_program, State.takeTurn_hostPc, hp, hostOp, mapNext_next]
  rw [State.holdReset_of_released (by exact hr)]

/-- The host's turn on a test of `irq`, with the pin released. -/
theorem systemStep_of_irqBranch {s : State} (hr : s.rst = false) (ht : s.turn = .host) {v : Bool} {l : Nat}
    (hp : s.program[s.hostPc]? = some (.ifIrq v l)) :
    systemStep s = .next (hostIrqBranch v l s.takeTurn) := by
  rw [systemStep_of_released hr, ht]
  simp only [performTurn, hostTurn, State.takeTurn_program, State.takeTurn_hostPc, hp, hostOp, mapNext_next]
  rw [State.holdReset_of_released (by exact hr)]

/-- The host's turn once its program has ended, with the pin released. -/
theorem systemStep_of_ended {s : State} (hr : s.rst = false) (ht : s.turn = .host)
    (hp : s.program[s.hostPc]? = none) : systemStep s = .next s.takeTurn := by
  rw [systemStep_of_released hr, ht]
  simp only [performTurn, hostTurn, State.takeTurn_program, State.takeTurn_hostPc, hp, mapNext_next]
  rw [State.holdReset_of_released (by exact hr)]

/-- The turn that asserts the pin, with the pin released before it. -/
theorem systemStep_of_assert {s : State} (hr : s.rst = false) (ht : s.turn = .rstAssert) :
    systemStep s = .next (assertReset s.takeTurn) := by
  rw [systemStep_of_released hr, ht]
  simp only [performTurn, mapNext_next]
  rw [State.holdReset_of_asserted rfl]
  rfl

/-- The turn that releases the pin where it is released already: a turn with nothing to do. -/
theorem systemStep_of_release {s : State} (hr : s.rst = false) (ht : s.turn = .rstRelease) :
    systemStep s = .next s.takeTurn := by
  have hs : releaseReset s.takeTurn = s.takeTurn := by simp [releaseReset, State.takeTurn, hr]
  rw [systemStep_of_released hr, ht]
  simp only [performTurn, mapNext_next, hs]
  rw [State.holdReset_of_released (by exact hr)]

/-- All a step can do to the engine, with the pin released before it. It was reset; or it had its turn; or, on
another's turn, it is as it was or took the write the host issued. -/
theorem systemStep_cases {s t : State} (hr : s.rst = false) (h : systemStep s = .next t) :
    (t.rst = true ∧ s.turn = .rstAssert ∧ t.eng = Engine.reset) ∨
    (t.rst = false ∧ s.turn = .engine ∧ t.eng = s.eng.turn) ∨
    (t.rst = false ∧ s.turn ≠ .engine ∧ (t.eng = s.eng ∨
      (s.turn = .host ∧ ∃ T, s.nextTxn = some T ∧ txnWrite T = true ∧
        t.eng = Engine.regWrite (txnOff T) (txnData T) s.eng))) := by
  cases ht : s.turn with
  | engine =>
    rw [systemStep_of_engine hr ht] at h
    cases h
    exact .inr (.inl ⟨hr, rfl, rfl⟩)
  | rstAssert =>
    rw [systemStep_of_released hr, ht] at h
    simp only [performTurn, mapNext_next] at h
    rw [State.holdReset_of_asserted rfl] at h
    cases h
    exact .inl ⟨rfl, rfl, rfl⟩
  | rstRelease =>
    rw [systemStep_of_released hr, ht] at h
    simp only [performTurn, mapNext_next] at h
    rw [State.holdReset_of_released rfl] at h
    cases h
    exact .inr (.inr ⟨rfl, by simp, .inl rfl⟩)
  | host =>
    have issued : ∀ T d u, s.nextTxn = some T → issueTxn T d s.takeTurn = .next u → u.rst = false ∧
        (u.eng = s.eng ∨ ∃ T, s.nextTxn = some T ∧ txnWrite T = true ∧
          u.eng = Engine.regWrite (txnOff T) (txnData T) s.eng) := by
      intro T d u hT hi
      rw [issueTxn_eq] at hi
      cases hi
      refine ⟨hr, ?_⟩
      simp only [State.retire_eng, State.takeTurn_eng, engineEffect_decode]
      split
      · exact .inr ⟨T, hT, ‹_›, rfl⟩
      · exact .inl rfl
    have key : ∀ u, hostTurn s.takeTurn = .next u → u.rst = false ∧
        (u.eng = s.eng ∨ ∃ T, s.nextTxn = some T ∧ txnWrite T = true ∧
          u.eng = Engine.regWrite (txnOff T) (txnData T) s.eng) := by
      intro u hu
      unfold hostTurn at hu
      simp only [State.takeTurn_program, State.takeTurn_hostPc] at hu
      split at hu
      · rename_i op hop
        cases op with
        | issue T d => exact issued T d u (by simp [State.nextTxn, ht, hop]) hu
        | access w a n v d =>
          simp only [hostOp] at hu
          split at hu
          · rename_i T hT
            rw [State.takeTurn_unit] at hT
            exact issued T d u (by simp [State.nextTxn, ht, hop, hT, Except.toOption]) hu
          · cases hu
        | ifGoto => cases hu; exact ⟨hr, .inl rfl⟩
        | ifIrq => cases hu; exact ⟨hr, .inl rfl⟩
      · cases hu; exact ⟨hr, .inl rfl⟩
    rw [systemStep_of_released hr, ht] at h
    cases hh : hostTurn s.takeTurn with
    | fault r => exact nomatch r
    | refused r => rw [performTurn, hh] at h; cases h
    | next u =>
      rw [performTurn, hh] at h
      obtain ⟨hu, he⟩ := key u hh
      rw [mapNext_next, State.holdReset_of_released hu] at h
      cases h
      exact .inr (.inr ⟨hu, by simp, he.imp id fun hT => ⟨rfl, hT⟩⟩)

/-- All a step can do to the engine while the pin is asserted before it: it is at its reset values after it (R132). -/
theorem systemStep_of_asserted {s t : State} (hr : s.rst = true) (h : systemStep s = .next t) :
    t.eng = Engine.reset := by
  unfold systemStep at h
  cases hp : performTurn s.holdReset.turn s.holdReset.takeTurn with
  | fault r => exact nomatch r
  | refused r => rw [hp] at h; cases h
  | next u =>
    rw [hp] at h
    cases h
    cases hu : u.rst with
    | true => rw [State.holdReset_of_asserted hu]
    | false =>
      rw [State.holdReset_of_released hu]
      cases ht : s.holdReset.turn <;> rw [ht] at hp
      · rcases hostTurn_cases hp with rfl | ⟨n, b, v, l, rfl⟩ | ⟨v, l, rfl⟩ | ⟨T, d, hT⟩
        · simp [hr] at hu
        · simp [hr] at hu
        · simp [hr] at hu
        · rw [issueTxn_eq] at hT; cases hT; simp [hr] at hu
      · cases hp; simp [hr] at hu
      · cases hp; simp at hu
      · cases hp; simp [hr]

/-- What no step changes, and that every step keeps the host variables' canonical form. -/
theorem systemStep_frame {s t : State} (h : systemStep s = .next t) :
    t.unit = s.unit ∧ t.program = s.program ∧ (varsWf s.vars = true → varsWf t.vars = true) := by
  unfold systemStep at h
  cases hp : performTurn s.holdReset.turn s.holdReset.takeTurn with
  | fault r => exact nomatch r
  | refused r => rw [hp] at h; cases h
  | next u =>
    rw [hp] at h
    cases h
    rw [State.holdReset_unit, State.holdReset_program, State.holdReset_vars]
    cases ht : s.holdReset.turn <;> rw [ht] at hp
    · rcases hostTurn_cases hp with rfl | ⟨n, b, v, l, rfl⟩ | ⟨v, l, rfl⟩ | ⟨T, d, hT⟩
      · simp
      · simp
      · simp
      · rw [issueTxn_eq] at hT
        cases hT
        refine ⟨by simp, by simp, fun hv => State.retire_varsWf d (by simpa using hv)⟩
    all_goals cases hp; simp

/-- The state with its count of free choices replaced. -/
def State.withFreeTurns (c : Nat) (s : State) : State := { s with freeTurns := c }

/-- No turn reads the count of free choices, or changes it. -/
theorem performTurn_withFreeTurns (c : Nat) (t : Turn) (s : State) :
    performTurn t (s.withFreeTurns c) = mapNext (State.withFreeTurns c) (performTurn t s) := by
  have issued : ∀ T d, issueTxn T d (s.withFreeTurns c) = mapNext (State.withFreeTurns c) (issueTxn T d s) := by
    intro T d
    rw [issueTxn_eq, issueTxn_eq, mapNext_next]
    cases decode T <;> rfl
  cases t with
  | engine => rfl
  | rstAssert => rfl
  | rstRelease => rfl
  | host =>
    simp only [performTurn, hostTurn]
    rw [show (s.withFreeTurns c).program[(s.withFreeTurns c).hostPc]? = s.program[s.hostPc]? from rfl]
    cases s.program[s.hostPc]? with
    | none => rfl
    | some op =>
      cases op with
      | issue T d => exact issued T d
      | access w a n v d =>
        simp only [hostOp]
        rw [show (s.withFreeTurns c).unit = s.unit from rfl]
        cases busWord s.unit w a n v with
        | ok T => exact issued T d
        | error r => rfl
      | ifGoto => rfl
      | ifIrq => rfl

/-- A step with no turn listed is the step in which the free choice is the one turn listed, but for the count of
free choices. -/
theorem step_of_unscheduled {s : State} (hs : s.schedule = []) :
    step s = mapNext (State.withFreeTurns (s.freeTurns + 1))
      (step { s with schedule := [Config.freeTurn s.unit s.freeTurns] }) := by
  have hold : ∀ c (o : Host.Outcome State Fault Refusal), mapNext State.holdReset (mapNext (State.withFreeTurns c) o) =
      mapNext (State.withFreeTurns c) (mapNext State.holdReset o) := by
    intro c o
    cases o with
    | next t => cases h : t.rst <;> simp [State.holdReset, State.withFreeTurns, h]
    | fault r => rfl
    | refused r => rfl
  have taken : s.holdReset.takeTurn = State.withFreeTurns (s.freeTurns + 1)
      (State.holdReset { s with schedule := [Config.freeTurn s.unit s.freeTurns] }).takeTurn := by
    cases h : s.rst <;> simp [State.holdReset, State.takeTurn, State.withFreeTurns, h, hs]
  have turn : s.holdReset.turn =
      (State.holdReset { s with schedule := [Config.freeTurn s.unit s.freeTurns] }).turn := by
    simp [State.turn, hs]
  rw [step_eq, step_eq, systemStep, systemStep, ← hold, taken, turn, performTurn_withFreeTurns]

/-- Engine steps after a start: the working registers are the iterations of the start's (R97, R99). -/
theorem engineSteps_start (m : Mode) (e : Engine) (n : Nat) (h : n < 64) :
    Engine.engineSteps n (Engine.start m e) =
      { (Engine.start m e).setWorking (iterMany m e.key n ⟨e.data0, e.data1, sumInit m⟩) with
        iter := BitVec.ofNat 7 n } := by
  induction n with
  | zero => rfl
  | succ n ih =>
    rw [Engine.engineSteps, ih (by omega), Engine.engineStep_of_more]
    · rw [iterMany_succ]
      simp only [Engine.iterate]
      rw [BitVec.ofNat_add]
      rfl
    · intro h'
      have := congrArg BitVec.toNat h'
      simp [BitVec.toNat_add] at this
      omega

/-- Runs, one step at a time. -/
theorem runSteps_succ (n : Nat) (s : State) :
    runSteps (n + 1) s =
      match step s with
      | .next t => runSteps n t
      | .fault r => .fault r
      | .refused r => .refused r := by
  cases h : step s <;> simp only [runSteps, Host.Core.run, core, h]

@[simp] theorem runSteps_zero (s : State) : runSteps 0 s = .next s := rfl

/-- Runs with given turns, one step at a time. -/
theorem runTurns_succ (turns : Nat → Turn) (n : Nat) (s : State) :
    runTurns turns (n + 1) s =
      match runTurns turns n s with
      | .next t => step { t with schedule := [turns n] }
      | .fault r => .fault r
      | .refused r => .refused r := rfl

@[simp] theorem runTurns_zero (turns : Nat → Turn) (s : State) : runTurns turns 0 s = .next s := rfl

/-- The next step of a run with given turns. -/
theorem runTurns_next {turns : Nat → Turn} {n : Nat} {s t u : State} (h : runTurns turns n s = .next t)
    (hs : step { t with schedule := [turns n] } = .next u) : runTurns turns (n + 1) s = .next u := by
  rw [runTurns_succ, h]
  exact hs

/-- Once the host program has ended, its turns leave the run where it is. -/
theorem runTurns_of_ended {turns : Nat → Turn} {k : Nat} {s t : State} (h : runTurns turns k s = .next t)
    (hr : t.rst = false) (hs : t.schedule = []) (hp : t.program.length ≤ t.hostPc)
    (ht : ∀ n, k ≤ n → turns n = .host) {n : Nat} (hn : k ≤ n) : runTurns turns n s = .next t := by
  induction n with
  | zero => rwa [Nat.le_zero.mp hn] at h
  | succ n ih =>
    rcases Nat.lt_or_ge n k with hk | hk
    · rwa [show k = n + 1 by omega] at h
    · refine runTurns_next (ih hk) ?_
      rw [ht n hk, step_eq, systemStep_of_ended (s := { t with schedule := [.host] }) hr rfl
        (List.getElem?_eq_none hp), State.takeTurn_of_listed rfl]
      rw [← hs]

@[simp] theorem State.enabled_host (s : State) : s.enabled .host = decide (s.hostPc < s.program.length) := rfl
@[simp] theorem State.enabled_engine (s : State) : s.enabled .engine = s.eng.busy := rfl
@[simp] theorem State.enabled_rstAssert (s : State) : s.enabled .rstAssert = true := rfl
@[simp] theorem State.enabled_rstRelease (s : State) : s.enabled .rstRelease = s.rst := rfl

/-- A run is over where neither the host nor the engine has a step (R117, log 19). -/
theorem State.finished_eq (s : State) : s.finished = (!s.enabled .host && !s.enabled .engine) := by
  by_cases h : s.hostPc < s.program.length
  · simp [State.finished, h]
  · simp [State.finished, h, Nat.not_lt.mp h]

end Sys2Proof.Machine
end

