-- ==== Sys2Proof/Tests/Slice0.lean ====
section
/-! SUPPORT. The model's own tests: expected values are the spec's (spec/30_encoding.md R66 and
spec/95_test_vectors.md), and, under `witness_…`, a state and operands that meet the hypotheses of each statement
of Certificates/Slice0/Obligations.lean. -/

open Sys2Proof Sys2Proof.Machine

namespace Sys2Proof.Tests

/-- The next state of an outcome, where there is one. -/
def nextOf : Host.Outcome State Fault Refusal → Option State
  | .next t => some t
  | .fault _ => none
  | .refused _ => none

/-- The engine after an outcome. -/
def engOf (o : Host.Outcome State Fault Refusal) : Option Engine := (nextOf o).map State.eng

/-- STATUS after an outcome. -/
def statusOf (o : Host.Outcome State Fault Refusal) : Option Word := (engOf o).map Engine.statusWord

/-- The response after an outcome. -/
def rdataOf (o : Host.Outcome State Fault Refusal) : Option Word := (nextOf o).bind State.rdata

theorem eq_of_nextOf {o : Host.Outcome State Fault Refusal} {t : State} (h : nextOf o = some t) : o = .next t := by
  cases o <;> simp_all [nextOf]

/-- Idle with STATUS 0x2, as 95 section 5.3 starts: an encryption has completed, ERR is clear. -/
def idleEngine : Engine :=
  { Engine.reset with data0 := 0xA0, data1 := 0xB1, key0 := 0xC0, key1 := 0xC1, key2 := 0xC2, key3 := 0xC3,
                      done := true, y := 0xA0, z := 0xB1, sum := sumDecInit }

/-- Encrypting, STATUS 0x1, no engine step made yet. -/
def busyEngine : Engine :=
  { idleEngine with done := false, busy := true, sum := 0 }

/-- Idle with STATUS 0x4. -/
def errEngine : Engine := { idleEngine with done := false, err := true }

/-- A machine with this engine, and nothing for the host to do. -/
def machine (e : Engine) : State := { State.reset with eng := e }

/-- A machine with this engine, this host program and this schedule. -/
def machineRun (e : Engine) (program : List HostOp) (schedule : List Turn) : State :=
  { State.reset with eng := e, program := program, schedule := schedule }

def idle : State := machine idleEngine

def busy : State := machine busyEngine

/-! ### WellFormed -/

theorem test_regWrite_at_ctrl_is_ill_formed : (Instr.regWrite 0 1).wf = false := by decide
theorem test_regWrite_elsewhere_is_well_formed : (Instr.regWrite 1 1).wf = true := by decide
theorem test_regRead_with_data_is_not_canonical :
    (Instr.regRead 8 1).canonical = false ∧ (Instr.regRead 8 1).wf = true := by decide
theorem test_ignored_bits_are_not_canonical :
    (Instr.nop false 1).canonical = false ∧ (Instr.encrypt false 1).canonical = false ∧
    (Instr.decrypt true 1).canonical = false ∧ (Instr.cmdReserved true 1).canonical = false ∧
    (Instr.regWrite 0 1).canonical = false := by decide

/-! ### Decoding: words written out bit by bit from R54–R56 (K, OFF, then the command word or WDATA) -/

theorem test_decode_regRead : decode (0b0#1 ++ 0b0001000#7 ++ 0#64) = .regRead 0x08 0 := by decide
theorem test_decode_regWrite :
    decode (0b1#1 ++ 0b0010000#7 ++ 0x0123456789ABCDEF#64) = .regWrite 0x10 0x0123456789ABCDEF := by decide
theorem test_decode_nop : decode (0b1#1 ++ 0b0000000#7 ++ 0#61 ++ 0b1#1 ++ 0b00#2) = .nop true 0 := by decide
theorem test_decode_encrypt : decode (0b1#1 ++ 0b0000000#7 ++ 0#61 ++ 0b0#1 ++ 0b01#2) = .encrypt false 0 := by
  decide
theorem test_decode_decrypt : decode (0b1#1 ++ 0b0000000#7 ++ 5#61 ++ 0b1#1 ++ 0b10#2) = .decrypt true 5 := by
  decide
theorem test_decode_cmdReserved :
    decode (0b1#1 ++ 0b0000000#7 ++ 0#61 ++ 0b0#1 ++ 0b11#2) = .cmdReserved false 0 := by decide
theorem test_encode :
    encode (.regRead 0x08 0) = 0x080000000000000000 ∧ encode (.regWrite 0x11 5) = 0x910000000000000005 ∧
    encode (.nop true 0) = 0x800000000000000004 ∧ encode (.encrypt false 0) = 0x800000000000000001 ∧
    encode (.decrypt false 0) = 0x800000000000000002 ∧ encode (.cmdReserved true 0) = 0x800000000000000007 := by
  decide
theorem test_decode_bytes :
    (decodeBytes [0x80, 0, 0, 0, 0, 0, 0, 0, 1]).toOption = some (.encrypt false 0) ∧
    (decodeBytes [0x90, 0x01, 0x23, 0x45, 0x67, 0x89, 0xAB, 0xCD, 0xEF]).toOption =
      some (.regWrite 0x10 0x0123456789ABCDEF) ∧
    (match decodeBytes [0x80] with | .error e => some e | .ok _ => none) = some .tooShort ∧
    (match decodeBytes [0, 0, 0, 0, 0, 0, 0, 0, 0, 0] with | .error e => some e | .ok _ => none) =
      some .tooLong := by decide
theorem test_decode_table_word :
    decodeTableWord 72 0x800000000000000002 = some (.decrypt false 0) ∧
    decodeTableWord 64 0xFF = some (.regRead 0 0xFF) ∧ decodeTableWord 80 0 = none := by decide

/-! ### The datapath (95 sections 3.1 to 3.3, with the wrong results of section 4 told apart) -/

theorem test_shifts :
    shl4 1 = 0x10 ∧ shr5 1 = 0 ∧ shl4 0x1F = 0x1F0 ∧ shr5 0x1F = 0 ∧
    shl4 0x8000000000000000 = 0 ∧ shr5 0x8000000000000000 = 0x0400000000000000 ∧
    shl4 0xF000000000000000 = 0 ∧ shr5 0xF000000000000000 = 0x0780000000000000 := by decide
theorem test_mix :
    mix 0 delta 0 1 = 0x0FD258F8F3210C69 ∧ mix 1 0 0 0 = 0x11 ∧
    mix 0x8000000000000000 0 0 0 = 0x8400000000000000 ∧
    mix 0xF000000000000000 0x1000000000000000 1 2 = 0x0780000000000003 ∧
    mix 0xFFFFFFFFFFFFFFFF delta 0 0 = 0xF7D258F8F3210C68 ∧
    mix 0x0123456789ABCDEF delta 0x1111111111111111 0x2222222222222222 = 0x119BC5A4896EAAC7 ∧
    mix 0x6EBC0771D933588A sumDecInit 0 1 = 0x8BE7D288BC8A60EF ∧
    mix 0x7625D32BA5D3B778 sumDecInit 0 0 = 0x0B500D4B6E033B43 := by decide
theorem test_half_rounds :
    encY 0 0 delta 0 0 = 0x0FD258F8F3210C68 ∧
    encZ 0x0FD258F8F3210C68 0 delta 0 1 = 0xE2FFACB913CBD634 ∧
    encY 0xFFFFFFFFFFFFFFFF 0 delta 0 0 = 0x0FD258F8F3210C67 ∧
    decZ 0x6EBC0771D933588A 0x020DA5B4625E1867 sumDecInit 0 1 = 0x7625D32BA5D3B778 ∧
    decY 0x6EBC0771D933588A 0x7625D32BA5D3B778 sumDecInit 0 0 = 0x636BFA266B301D47 ∧
    decZ 0 0 delta 0 0 = 0xF02DA7070CDEF398 ∧
    encZ 0x6EBC0771D933588A 0x7625D32BA5D3B778 sumDecInit 0 1 = 0x020DA5B4625E1867 := by decide
theorem test_encrypt_trace :
    iterMany .encrypt ⟨0, 0, 0, 1⟩ 3 ⟨0, 0, 0⟩ =
      ⟨0xFA1C039B92984EF8, 0x6C303C0EFE1DA302, 0x2F770AEAD9632538⟩ ∧
    iterMany .decrypt ⟨0, 0, 0, 1⟩ 2 ⟨0x6EBC0771D933588A, 0x020DA5B4625E1867, sumDecInit⟩ =
      ⟨0x103AB558E1D98102, 0xF89AB04DE5C93934, 0xD4F18C4AE2010130⟩ := by decide

/-- The source's vectors (95 section 2.1), both ways. -/
theorem test_source_vectors :
    encryptBlock ⟨0, 0, 0, 1⟩ (0, 0) = (0x6EBC0771D933588A, 0x020DA5B4625E1867) ∧
    encryptBlock ⟨0, 0, 0, 1⟩ (0, 1) = (0xE093E1D3F05BA7DC, 0x7C3A6E65D634AB0B) ∧
    encryptBlock ⟨0, 0, 0, 1⟩ (1, 1) = (0x7A51A4E409512F7E, 0xFD07704C25408727) ∧
    decryptBlock ⟨0, 0, 0, 1⟩ (0x6EBC0771D933588A, 0x020DA5B4625E1867) = (0, 0) ∧
    decryptBlock ⟨0, 0, 0, 1⟩ (0xE093E1D3F05BA7DC, 0x7C3A6E65D634AB0B) = (0, 1) ∧
    decryptBlock ⟨0, 0, 0, 1⟩ (0x7A51A4E409512F7E, 0xFD07704C25408727) = (1, 1) := by decide +kernel

/-- Rows of 95 section 3.6: all ones, and four distinct key words. -/
theorem test_derived_vectors :
    encryptBlock ⟨0xFFFFFFFFFFFFFFFF, 0xFFFFFFFFFFFFFFFF, 0xFFFFFFFFFFFFFFFF, 0xFFFFFFFFFFFFFFFF⟩
      (0xFFFFFFFFFFFFFFFF, 0xFFFFFFFFFFFFFFFF) = (0x229FC7A9C854458B, 0x822C6CDAD5A62688) ∧
    encryptBlock ⟨0x0011223344556677, 0x8899AABBCCDDEEFF, 0x0F1E2D3C4B5A6978, 0x8796A5B4C3D2E1F0⟩
      (0x0123456789ABCDEF, 0xFEDCBA9876543210) = (0x7C27612147207F0E, 0xE17BFF287760BB85) ∧
    decryptBlock ⟨0x0011223344556677, 0x8899AABBCCDDEEFF, 0x0F1E2D3C4B5A6978, 0x8796A5B4C3D2E1F0⟩
      (0x0123456789ABCDEF, 0xFEDCBA9876543210) = (0x837B6B643DBE1668, 0x6BC5C6C462E5E7EF) ∧
    decryptBlock ⟨0, 0, 0, 2⟩ (0, 0) = (0x25DED5EB42160468, 0x1CC804F938840CD6) ∧
    encryptBlock ⟨0, 0, 0, 1⟩ (0xFFFFFFFFFFFFFFFF, 0xFFFFFFFFFFFFFFFF) =
      (0x671957EC666AA108, 0xAAD6435D4FFFF005) := by decide +kernel

/-! ### Instructions, one step each (95 sections 5.1 to 5.3) -/

theorem test_nop_idle :
    engOf (exec (.nop false 0) idle) = some idleEngine ∧
    engOf (exec (decode 0x80FFFFFFFFFFFFFFF8) idle) = some idleEngine ∧
    statusOf (exec (.nop true 0) idle) = some 0 := by decide
theorem test_nop_busy_is_refused :
    engOf (exec (.nop true 0) busy) = some { busyEngine with err := true } ∧
    statusOf (exec (.nop true 0) (machine { busyEngine with err := true })) = some 5 := by decide
theorem test_encrypt_idle :
    engOf (exec (.encrypt false 0) idle) = some busyEngine ∧
    statusOf (exec (.encrypt true 0) (machine errEngine)) = some 1 ∧
    statusOf (exec (.encrypt false 0) (machine errEngine)) = some 5 := by decide
theorem test_encrypt_busy_is_refused : statusOf (exec (.encrypt true 0) busy) = some 5 := by decide
theorem test_decrypt_idle :
    engOf (exec (.decrypt false 0) idle) = some { idleEngine with
      mode := .decrypt, y := 0xA0, z := 0xB1, sum := 0xF4963E3CC8431A00, iter := 0, done := false, busy := true } ∧
    statusOf (exec (.decrypt false 0) idle) = some 9 := by decide
theorem test_decrypt_busy_is_refused :
    engOf (exec (.decrypt false 0) busy) = some { busyEngine with err := true } := by decide
theorem test_cmdReserved_idle :
    statusOf (exec (.cmdReserved false 0) idle) = some 6 ∧ statusOf (exec (.cmdReserved true 0) idle) = some 4 := by
  decide
theorem test_cmdReserved_busy : engOf (exec (.cmdReserved true 0) busy) = some { busyEngine with err := true } := by
  decide
theorem test_regWrite_idle :
    engOf (exec (.regWrite 0x10 0xFF) idle) = some { idleEngine with data0 := 0xFF } ∧
    engOf (exec (.regWrite 0x30 5) idle) = some { idleEngine with key2 := 5 } ∧
    engOf (exec (.regWrite 0x08 2) idle) = some { idleEngine with err := true } ∧
    engOf (exec (.regWrite 0x40 0) idle) = some { idleEngine with err := true } ∧
    engOf (exec (.regWrite 0x11 5) idle) = some { idleEngine with err := true } := by decide
theorem test_regWrite_busy :
    engOf (exec (.regWrite 0x10 0xFF) busy) = some { busyEngine with err := true } ∧
    engOf (exec (.regWrite 0x20 1) busy) = some { busyEngine with err := true } := by decide
theorem test_regRead_idle :
    rdataOf (exec (.regRead 0x00 0) idle) = some 0 ∧ rdataOf (exec (.regRead 0x08 0) idle) = some 2 ∧
    rdataOf (exec (.regRead 0x10 0) idle) = some 0xA0 ∧ rdataOf (exec (.regRead 0x18 7) idle) = some 0xB1 ∧
    rdataOf (exec (.regRead 0x20 0) idle) = some 0 ∧ rdataOf (exec (.regRead 0x78 0) idle) = some 0 ∧
    rdataOf (exec (.regRead 0x11 0) idle) = some 0 := by decide
theorem test_regRead_busy :
    rdataOf (exec (.regRead 0x10 0) busy) = some 0 ∧ rdataOf (exec (.regRead 0x18 0) busy) = some 0 ∧
    rdataOf (exec (.regRead 0x08 0) (machine { busyEngine with mode := .decrypt, err := true })) = some 0xD ∧
    engOf (exec (.regRead 0x7F 0) busy) = some busyEngine := by decide

/-! ### The engine, reset and the host (95 sections 5.4, 5.5) -/

/-- Encrypting the block (0, 0) under the key (0, 0, 0, 1), at the start. -/
def vector1 : Engine := { Engine.reset with key3 := 1, busy := true }

/-- The same after 63 engine steps. -/
def vector1Last : Engine :=
  { vector1 with y := 0x636BFA266B301D47, z := 0x7625D32BA5D3B778, sum := 0xE4C3E543D5220D98, iter := 63 }

theorem test_first_engine_step :
    engOf (step (machineRun vector1 [] [.engine])) = some { vector1 with
      iter := 1, sum := delta, y := 0x0FD258F8F3210C68, z := 0xE2FFACB913CBD634 } := by decide
theorem test_63_engine_steps : Engine.engineSteps 63 vector1 = vector1Last := by decide +kernel
theorem test_completion :
    engOf (step (machineRun vector1Last [] [.engine])) = some { vector1 with
      data0 := 0x6EBC0771D933588A, data1 := 0x020DA5B4625E1867, y := 0x6EBC0771D933588A, z := 0x020DA5B4625E1867,
      sum := sumDecInit, iter := 0, busy := false, done := true } ∧
    statusOf (step (machineRun vector1Last [] [.engine])) = some 2 := by decide
theorem test_reset_pin :
    engOf (step (machineRun busyEngine [] [.rstAssert])) = some Engine.reset ∧
    rdataOf (exec (.regRead 0x10 0) (machine Engine.reset)) = some 0 := by decide
theorem test_write_while_reset_is_held :
    engOf (step { machineRun Engine.reset [opWr .data0 5] [.host] with rst := true }) = some Engine.reset := by
  decide
theorem test_host_poll :
    (nextOf (step (machineRun busyEngine (opWait 0 3) [.host]))).map (fun t => (getVar t.vars 3, t.hostPc)) =
      some (1, 1) ∧
    (nextOf (step { machineRun busyEngine (opWait 0 3) [.host] with hostPc := 1, vars := [(3, 1)] })).map
      State.hostPc = some 0 := by decide
/-- A host that waits for `irq` stays where it is while the engine is busy and goes on once DONE is 1 (R49). -/
theorem test_host_waits_for_irq :
    (nextOf (step (machineRun busyEngine (opWaitIrq 0) [.host]))).map State.hostPc = some 0 ∧
    (nextOf (step (machineRun idleEngine (opWaitIrq 0) [.host]))).map State.hostPc = some 1 := by decide
theorem test_free_turn_is_counted :
    (machineRun busyEngine [] []).takeTurn.freeTurns = 1 ∧ (machineRun busyEngine [] [.host]).takeTurn.freeTurns = 0 := by
  decide
theorem test_host_variables :
    setVar [(1, 5), (4, 6)] 3 7 = [(1, 5), (3, 7), (4, 6)] ∧ setVar [(1, 5), (4, 6)] 4 0 = [(1, 5)] ∧
    varsWf [(1, 5), (1, 6)] = false ∧ varsWf [(1, 0)] = false := by decide
theorem test_fetched_word_runs :
    engOf (step (State.reset.withFetchWord 72 0x900000000000000007)) = some { Engine.reset with data0 := 7 } := by
  decide
theorem test_program_notation :
    opSetKey 1 2 3 4 = [.issue 0xA00000000000000001 none, .issue 0xA80000000000000002 none,
      .issue 0xB00000000000000003 none, .issue 0xB80000000000000004 none] ∧
    opSetBlk 1 2 = [.issue 0x900000000000000001 none, .issue 0x980000000000000002 none] ∧
    opStartEnc ++ opStartDec ++ opClr = [.issue 0x800000000000000001 none, .issue 0x800000000000000002 none,
      .issue 0x800000000000000004 none] ∧
    opGetBlk 1 2 = [.issue 0x100000000000000000 (some 1), .issue 0x180000000000000000 (some 2)] ∧
    opWrAt 0x40 9 = .issue 0xC00000000000000009 none ∧
    opRdAt 0x11 2 = .issue 0x110000000000000000 (some 2) := by decide

/-! ### Witnesses: a state and operands that meet the hypotheses of each statement that has some -/

theorem witness_DecodeOfEncodeIsInstruction :
    (Instr.regWrite 0x7F 1).wf = true ∧ (Instr.regRead 0 1).wf = true ∧ (Instr.nop true 1).wf = true ∧
    (Instr.encrypt true 1).wf = true ∧ (Instr.decrypt false 1).wf = true ∧ (Instr.cmdReserved true 1).wf = true := by
  decide
theorem witness_EveryWordHasOneRow :
    rowRegWrite ∈ opcodeTable ∧ rowRegWrite.matchesWord 0x800000000000000001 = true ∧
    rowEncrypt ∈ opcodeTable ∧ rowEncrypt.matchesWord 0x800000000000000001 = true := by decide
theorem witness_ShiftsMatchTheirArithmetic :
    (shl4 0x11).getLsbD 4 = true ∧ (shl4 0x1F).getLsbD 3 = false ∧ (shr5 0x8000000000000000).getLsbD 58 = true ∧
    (shr5 0x8000000000000000).getLsbD 59 = false := by decide
theorem witness_AccumulatorSchedule : (1 : Nat) ≤ 1 ∧ (1 : Nat) ≤ 64 ∧ (64 : Nat) ≤ 64 := by decide
theorem witness_NopEffect : idle.eng.busy = false ∧ busy.eng.busy = true := by decide
theorem witness_EncryptEffect : idle.eng.busy = false ∧ busy.eng.busy = true := by decide
theorem witness_DecryptEffect : idle.eng.busy = false ∧ busy.eng.busy = true := by decide
theorem witness_CmdReservedEffect : idle.eng.busy = false ∧ busy.eng.busy = true := by decide
theorem witness_CtrlWritesRefusedWhileBusy : busy.eng.busy = true := by decide
theorem witness_ClrActsBeforeTheCommand :
    Instr.encrypt ∈ [Instr.nop, .encrypt, .decrypt, .cmdReserved] ∧
    Instr.cmdReserved ∈ [Instr.nop, .encrypt, .decrypt, .cmdReserved] ∧
    idle.eng.busy = false ∧ busy.eng.busy = true := by
  refine ⟨?_, ?_, by decide, by decide⟩ <;> simp
theorem witness_IgnoredCommandBitsHaveNoEffect :
    (0x5 : Word).extractLsb' 0 3 = (0xFFFFFFFFFFFFFFFD : Word).extractLsb' 0 3 := by decide
theorem witness_CtrlWriteDispatch :
    busy.eng.busy = true ∧ idle.eng.busy = false ∧ (0xC : Word).extractLsb' 0 2 = 0 ∧
    (0x5 : Word).extractLsb' 0 2 = 1 ∧ (0x2 : Word).extractLsb' 0 2 = 2 ∧
    (0xFFFFFFFFFFFFFFFF : Word).extractLsb' 0 2 = 3 := by decide
theorem witness_HiddenStateIsNotReadable :
    busy.eng.busy = (machine { busyEngine with key0 := 9, data0 := 8, y := 7 }).eng.busy ∧
    busy.eng.done = (machine { busyEngine with key0 := 9, data0 := 8, y := 7 }).eng.done ∧
    busy.eng.err = (machine { busyEngine with key0 := 9, data0 := 8, y := 7 }).eng.err ∧
    busy.eng.mode = (machine { busyEngine with key0 := 9, data0 := 8, y := 7 }).eng.mode ∧
    (busy.eng.busy = false → busy.eng.data0 = 8 ∧ busy.eng.data1 = 0xB1) ∧
    exec (.regRead 0x10 0) busy = .next { busy with rdata := some 0 } ∧
    exec (.regRead 0x10 0) (machine { busyEngine with key0 := 9, data0 := 8, y := 7 }) =
      .next { machine { busyEngine with key0 := 9, data0 := 8, y := 7 } with rdata := some 0 } := by
  refine ⟨rfl, rfl, rfl, rfl, by decide, eq_of_nextOf (by decide), eq_of_nextOf (by decide)⟩
theorem witness_DataAndKeyWrites :
    idle.eng.busy = false ∧ busy.eng.busy = true ∧
    (0x10 : BitVec 7) ∈ [(0x10 : BitVec 7), 0x18, 0x20, 0x28, 0x30, 0x38] ∧
    (0x38 : BitVec 7) ∈ [(0x10 : BitVec 7), 0x18, 0x20, 0x28, 0x30, 0x38] := by decide
theorem witness_StatusReservedAndMisalignedWrites :
    (0x40 : Nat) ≤ (0x40 : BitVec 7).toNat ∧ (0x40 : Nat) ≤ (0x7F : BitVec 7).toNat ∧
    (0x01 : BitVec 7).toNat % 8 ≠ 0 ∧ (0x3F : BitVec 7).toNat % 8 ≠ 0 := by decide
theorem witness_WritesAreSeenAtOnce :
    idle.eng.busy = false ∧ Instr.encrypt ∈ [Instr.encrypt, .decrypt] ∧ Instr.decrypt ∈ [Instr.encrypt, .decrypt] ∧
    ((0x38 : BitVec 7), { idle.eng.key with k3 := 5 }) ∈
      [((0x20 : BitVec 7), { idle.eng.key with k0 := 5 }), (0x28, { idle.eng.key with k1 := 5 }),
        (0x30, { idle.eng.key with k2 := 5 }), (0x38, { idle.eng.key with k3 := 5 })] := by
  refine ⟨by decide, ?_, ?_, ?_⟩ <;> simp
theorem witness_WritesOtherThanCommandsAreIdempotent : (0x01 : BitVec 7) ≠ 0 ∧ busy.eng.busy = true := by decide
theorem witness_IdleOperandWritesCommute :
    idle.eng.busy = false ∧ (0x10 : BitVec 7) ≠ 0x38 ∧
    (0x10 : BitVec 7) ∈ [(0x10 : BitVec 7), 0x18, 0x20, 0x28, 0x30, 0x38] ∧
    (0x38 : BitVec 7) ∈ [(0x10 : BitVec 7), 0x18, 0x20, 0x28, 0x30, 0x38] := by decide

/-- Each cause E1 to E5 as a transaction, a write that is none of them, a read, and a step that raises ERR. -/
theorem witness_ErrIsSetByItsCausesOnly :
    exec (decode (txnWord true 0x10 1)) busy = .next { busy with eng := { busyEngine with err := true } } ∧
    exec (decode (txnWord true 0 7)) idle =
      .next { idle with eng := { idleEngine with done := false, err := true } } ∧
    exec (decode (txnWord true 0x08 1)) idle = .next { idle with eng := { idleEngine with err := true } } ∧
    exec (decode (txnWord true 0x40 1)) idle = .next { idle with eng := { idleEngine with err := true } } ∧
    exec (decode (txnWord true 0x39 1)) idle = .next { idle with eng := { idleEngine with err := true } } ∧
    exec (decode (txnWord true 0 4)) (machine errEngine) =
      .next { machine errEngine with eng := { errEngine with err := false } } ∧
    exec (decode (txnWord false 0x7F 0)) idle = .next { idle with rdata := some 0 } ∧
    (∃ t, step (machineRun idleEngine [opWr .status 1] [.host]) = .next t ∧ idleEngine.err = false ∧
      t.eng.err = true) := by
  refine ⟨?_, ?_, ?_, ?_, ?_, ?_, ?_, ⟨_, rfl, by decide⟩⟩ <;> exact eq_of_nextOf (by decide)

theorem witness_ErrCause :
    busyEngine.ErrCause (txnWord true 0x10 1) ∧ idleEngine.ErrCause (txnWord true 0 3) ∧
    idleEngine.ErrCause (txnWord true 0x08 1) ∧ idleEngine.ErrCause (txnWord true 0x40 1) ∧
    idleEngine.ErrCause (txnWord true 0x7F 1) ∧ idleEngine.ErrCause (txnWord true 0x01 1) ∧
    ¬ idleEngine.ErrCause (txnWord true 0x38 1) ∧ ¬ idleEngine.ErrCause (txnWord false 0x40 0) := by
  unfold Engine.ErrCause
  decide

theorem witness_InstructionFrame :
    exec (decode (txnWord true 0x10 1)) idle = .next { idle with eng := { idleEngine with data0 := 1 } } ∧
    exec (decode (txnWord true 0 1)) idle = .next { idle with eng := busyEngine } ∧
    exec (decode (txnWord false 0x10 0)) idle = .next { idle with rdata := some 0xA0 } := by
  refine ⟨?_, ?_, ?_⟩ <;> exact eq_of_nextOf (by decide)

theorem witness_EngineStepIteratesAndCompletes :
    (machineRun vector1 [] [.engine, .host]).rst = false ∧
    (machineRun vector1 [] [.engine, .host]).schedule = [.engine, .host] ∧ vector1.busy = true ∧
    vector1.iter.toNat < 63 ∧ { vector1 with iter := 62 }.iter.toNat < 63 ∧ vector1Last.busy = true ∧ vector1Last.iter = 63 ∧ vector1.mode = .encrypt := by decide
theorem witness_IdleEngineHasNoStep :
    (machineRun idleEngine [] [.engine]).rst = false ∧
    (machineRun idleEngine [] [.engine]).schedule = [.engine] ∧ idleEngine.busy = false := by decide
theorem witness_FinishedRunStaysAsItIs :
    (machineRun idleEngine [] [.host]).rst = false ∧ (machineRun idleEngine [] [.host]).finished = true ∧
    (machineRun idleEngine [] [.host]).turn = .host ∧ (machineRun idleEngine [] [.engine]).turn = .engine := by decide
theorem witness_OperationTakes64EngineSteps : idle.eng.busy = false := by decide

/-- An idle machine whose host polls STATUS and writes DATA0 after the start, between engine steps. -/
def interleaved : State :=
  machineRun idleEngine [opRd .status 1, opWr .data0 5] ([.engine, .host, .engine, .engine, .host] ++ List.replicate 61 .engine)

/-- The hypotheses on the run, for the state after a start: busy for 66 steps, and idle after them. -/
def completesAt66 (s : State) : Bool :=
  (List.range 66).all (fun m => (nextOf (runSteps m s)).any (fun u => u.eng.busy)) &&
    (nextOf (runSteps 66 s)).any (fun t => !t.eng.busy && !t.rst)

theorem completesAt66_spec {s : State} (h : completesAt66 s = true) :
    ∃ t, runSteps 66 s = .next t ∧
      (∀ m, m < 66 → ∃ u, runSteps m s = .next u ∧ u.eng.busy = true) ∧ t.eng.busy = false ∧ t.rst = false := by
  simp only [completesAt66, Bool.and_eq_true, List.all_eq_true, List.mem_range, Option.any_eq_true] at h
  obtain ⟨h₁, t, ht, hb⟩ := h
  refine ⟨t, eq_of_nextOf ht, fun m hm => ?_, by simpa using hb.1, by simpa using hb.2⟩
  obtain ⟨u, hu, hub⟩ := h₁ m hm
  exact ⟨u, eq_of_nextOf hu, hub⟩

theorem witness_ResultWhateverIsInterleaved :
    interleaved.rst = false ∧ interleaved.eng.busy = false ∧
    (∃ s₁ t, exec (.encrypt false 0) interleaved = .next s₁ ∧ runSteps 66 s₁ = .next t ∧
      (∀ m, m < 66 → ∃ u, runSteps m s₁ = .next u ∧ u.eng.busy = true) ∧ t.eng.busy = false ∧ t.rst = false) ∧
    (∃ s₁ t, exec (.decrypt false 0) interleaved = .next s₁ ∧ runSteps 66 s₁ = .next t ∧
      (∀ m, m < 66 → ∃ u, runSteps m s₁ = .next u ∧ u.eng.busy = true) ∧ t.eng.busy = false ∧ t.rst = false) := by
  obtain ⟨t, h⟩ := completesAt66_spec
    (s := { interleaved with eng := Engine.start .encrypt idleEngine }) (by decide +kernel)
  obtain ⟨t', h'⟩ := completesAt66_spec
    (s := { interleaved with eng := Engine.start .decrypt idleEngine }) (by decide +kernel)
  exact ⟨rfl, rfl, ⟨_, t, rfl, h⟩, ⟨_, t', rfl, h'⟩⟩

theorem witness_ChainedOperations : idle.eng.busy = false := by decide
theorem witness_BootSequenceComputesTheTransform : idle.eng.busy = false := by decide

theorem vector1_ok : vector1.Consistent ∧ vector1.OnTrack :=
  ⟨⟨by decide, by decide, by decide, by decide, by decide⟩, fun _ => ⟨by decide, by decide⟩⟩

theorem vector1Last_ok : vector1Last.Consistent ∧ vector1Last.OnTrack :=
  ⟨⟨by decide, by decide, by decide, by decide +kernel, by decide⟩, fun _ => ⟨by decide, by decide +kernel⟩⟩

/-- The invariant of a machine with its pin released and no host variable set is that of its engine. -/
theorem machineRun_inv {e : Engine} (h : e.Consistent ∧ e.OnTrack) (program : List HostOp) (schedule : List Turn) :
    (machineRun e program schedule).Inv :=
  ⟨h.1, h.2, fun hr => Bool.noConfusion hr, rfl⟩

theorem witness_OperationInFlightCompletes :
    (machineRun vector1 [] (List.replicate 64 .engine)).Inv ∧ vector1.busy = true ∧ 64 - vector1.iter.toNat = 64 ∧
    (machineRun vector1Last [] [.engine, .host]).Inv ∧ vector1Last.busy = true ∧
    [Turn.engine, .host] = List.replicate (64 - vector1Last.iter.toNat) .engine ++ [.host] :=
  ⟨machineRun_inv vector1_ok _ _, rfl, rfl, machineRun_inv vector1Last_ok _ _, rfl, rfl⟩
theorem witness_StepKeepsTheInvariant :
    (machineRun vector1 [] [.engine]).Inv ∧
    step (machineRun vector1 [] [.engine]) = .next (machine vector1.engineStep) ∧
    (machineRun vector1Last [] [.engine]).Inv ∧
    step (machineRun vector1Last [] [.engine]) = .next (machine vector1Last.engineStep) :=
  ⟨machineRun_inv vector1_ok _ _, eq_of_nextOf (by decide), machineRun_inv vector1Last_ok _ _, eq_of_nextOf (by decide)⟩
theorem witness_ReachableStatesAreConsistent :
    ∃ t, runSteps 2 { State.reset with program := [opWr .ctrl 1], schedule := [.host, .engine] } = .next t ∧
      t.eng.iter = 1 := ⟨_, rfl, by decide⟩
theorem witness_BusyLocksTheOperands :
    busy.rst = false ∧ busy.eng.busy = true ∧
    step (machineRun busyEngine [] [.engine]) = .next (machine busyEngine.engineStep) ∧
    (machine busyEngine.engineStep).rst = false := ⟨rfl, rfl, eq_of_nextOf (by decide), rfl⟩
theorem witness_ErrIsSticky :
    (∃ t, step (machineRun errEngine [opWr .ctrl 4] [.host]) = .next t ∧ errEngine.err = true ∧ t.eng.err = false) ∧
    (∃ t, step (machineRun errEngine [] [.rstAssert]) = .next t ∧ t.eng.err = false ∧ t.rst = true) :=
  ⟨⟨_, rfl, by decide⟩, ⟨_, rfl, by decide⟩⟩
theorem witness_IrqChangesAtItsPoints :
    (∃ t, step (machineRun vector1Last [] [.engine]) = .next t ∧ vector1Last.irq = false ∧ t.eng.irq = true ∧
      (machineRun vector1Last [] [.engine]).turn = .engine) ∧
    (∃ t, step (machineRun idleEngine [opWr .ctrl 1] [.host]) = .next t ∧ idleEngine.irq = true ∧ t.eng.irq = false) ∧
    (∃ t, step (machineRun busyEngine [opWr .ctrl 4] [.host]) = .next t ∧ busyEngine.busy = true ∧
      (machineRun busyEngine [opWr .ctrl 4] [.host]).turn = .host ∧ t.rst = false) :=
  ⟨⟨_, rfl, by decide⟩, ⟨_, rfl, by decide⟩, ⟨_, rfl, by decide⟩⟩
theorem witness_BusyRisesOnlyAtAStart :
    ∃ t, step (machineRun idleEngine [opWr .ctrl 2] [.host]) = .next t ∧ idleEngine.busy = false ∧ t.eng.busy = true :=
  ⟨_, rfl, by decide⟩

/-- Busy in its last iteration, and then a host that polls STATUS and writes a key. -/
theorem witness_BusyFallsWithTheResult :
    ∃ t, step (machineRun vector1Last [opRd .status 0, opWr .key0 1] [.engine, .host, .host]) = .next t ∧
      vector1Last.busy = true ∧ t.eng.busy = false ∧ t.rst = false ∧
      ∃ u, runSteps 2 t = .next u ∧ u.eng.key0 = 1 ∧
        (∀ m v, m ≤ 2 → runSteps m t = .next v → v.rst = false ∧
          (m < 2 → ∀ T, v.nextTxn = some T → txnWrite T = true → txnOff T ≠ 0x10 ∧ txnOff T ≠ 0x18 ∧
            ¬ (txnOff T = 0 ∧ ((txnData T).extractLsb' 0 2 = 1 ∨ (txnData T).extractLsb' 0 2 = 2)))) := by
  refine ⟨_, rfl, rfl, rfl, rfl, _, rfl, rfl, ?_⟩
  intro m v hm hv
  match m, hm with
  | 0, _ => cases hv; exact ⟨rfl, fun _ T hT => by cases hT; decide⟩
  | 1, _ => cases hv; exact ⟨rfl, fun _ T hT => by cases hT; decide⟩
  | 2, _ => cases hv; exact ⟨rfl, fun h => absurd h (by decide)⟩
theorem witness_ResetClearsTheEngine :
    (machineRun busyEngine [] [.rstAssert, .host]).schedule = [.rstAssert, .host] ∧
    ∃ t, step { machineRun busyEngine [opWr .data0 5] [.host] with rst := true } = .next t ∧ t.rst = true :=
  ⟨rfl, _, rfl, rfl⟩
theorem witness_ReadsAfterResetAnswerZero : State.reset.eng = State.reset.eng ∧
    (machineRun Engine.reset [opRd .data0 1] [.host]).eng = State.reset.eng := by decide
theorem witness_CompletionAndWriteMayRace :
    (machineRun vector1Last [opWr .data0 5] []).rst = false ∧ vector1Last.busy = true ∧ vector1Last.iter = 63 ∧
    (machineRun vector1Last [opWr .data0 5] []).program[0]? = some (.issue (txnWord true 0x10 5) none) := by decide
theorem witness_ControlIsIndependentOfData :
    vector1.busy = busyEngine.busy ∧ vector1.done = busyEngine.done ∧ vector1.err = busyEngine.err ∧
    vector1.iter = busyEngine.iter ∧ (0x10 : BitVec 7) ≠ 0 ∧
    (∃ t, exec (.regWrite 0x10 1) busy = .next t) ∧
    (∃ t, exec (.regWrite 0x10 2) (machine vector1) = .next t) := by
  refine ⟨rfl, rfl, rfl, rfl, by decide, ⟨_, rfl⟩, ⟨_, rfl⟩⟩
theorem witness_StepRunsTheDecodedInstruction :
    (machineRun idleEngine [opRd .data0 4] [.host]).rst = false ∧
    (machineRun idleEngine [opRd .data0 4] [.host]).turn = .host ∧
    (machineRun idleEngine [opRd .data0 4] [.host]).program[0]? = some (.issue (txnWord false 0x10 0) (some 4)) ∧
    decode (txnWord false 0x10 0) = .regRead 0x10 0 ∧
    ∃ t, exec (.regRead 0x10 0) { (machineRun idleEngine [opRd .data0 4] [.host]).takeTurn with rdata := none } =
      .next t :=
  ⟨rfl, rfl, rfl, by decide, _, rfl⟩
theorem witness_FetchWordRunsNext :
    decodeTableWord 72 0x800000000000000001 = some (.encrypt false 0) ∧
    ∃ t, exec (.encrypt false 0) { State.reset.withFetchWord 72 0x800000000000000001 with
      schedule := State.reset.schedule, rdata := none } = .next t := ⟨by decide, _, rfl⟩
theorem witness_StepStopsOnlyOnForeignAccesses :
    step (machineRun idleEngine [.access true (Config.engineBase 0 + 0x80) 8 0 none] [.host]) =
      .refused .outsideWindow ∧
    step (machineRun idleEngine [.access false (Config.engineBase 0) 4 0 none] [.host]) = .refused .notWholeWord := by
  constructor <;> simp [step, systemStep, performTurn, hostTurn, hostOp, busWord, machineRun, State.turn,
    State.holdReset, State.takeTurn, State.reset, idleEngine, Engine.reset, mapNext]
theorem witness_WindowPlacesAccesses (unit : Nat) :
    Config.engineBase unit ≤ Config.engineBase unit + 127 ∧
    Config.engineBase unit + 128 ≤ Config.engineBase unit + 128 ∧
    Config.engineBase unit + 127 < Config.engineBase unit + 128 ∧ (4 : Nat) ≠ 8 := by omega
theorem witness_HostBranchMovesTheHostOnly :
    (machineRun idleEngine (opWait 0 3) [.host]).rst = false ∧
    (machineRun idleEngine (opWait 0 3) [.host]).turn = .host ∧
    { machineRun idleEngine (opWait 0 3) [.host] with hostPc := 1 }.program[1]? = some (.ifGoto 3 0 true 0) ∧
    (machineRun idleEngine (opWaitIrq 0) [.host]).turn = .host ∧
    (machineRun idleEngine (opWaitIrq 0) [.host]).program[0]? = some (.ifIrq false 0) := by
  decide

/-- Two machines, at their places. -/
def platform : Platform :=
  [machineRun idleEngine [] [.host], { machineRun busyEngine [] [.engine] with unit := 1 }]

theorem witness_InstancesShareNothing :
    (∃ q, Platform.stepAt 1 platform = .next q ∧ (platform[1]?).isSome = true) ∧ platform.wf ∧
    (∃ T, busWord 1 true (Config.engineBase 1 + 0x7F) 8 5 = .ok T) := by
  refine ⟨⟨_, rfl, rfl⟩, ?_, ?_⟩
  · intro n s h
    match n with
    | 0 => cases h; rfl
    | 1 => cases h; rfl
    | n + 2 => cases h
  · simp [busWord]

/-- The engine's turn and the host's, one after the other for ever. -/
def inTurns (n : Nat) : Turn := if n % 2 = 0 then .host else .engine

/-- One engine turn, and then the host's for ever. -/
def engineThenHost (n : Nat) : Turn := if n = 0 then .engine else .host

/-- Where the host program ends in turn `k` of `engineThenHost`, with BUSY = 0, the run is fair and goes on until it
is over. -/
theorem engineThenHost_settles {s : State} (k : Nat) (hk : 0 < k)
    (h : ((nextOf (runTurns engineThenHost k s)).any (fun u => u.enabled .host) &&
      (nextOf (runTurns engineThenHost (k + 1) s)).any (fun t =>
        decide (t.rst = false) && decide (t.schedule = []) && t.finished)) = true) :
    WeaklyFair engineThenHost s ∧ KeepsStepping engineThenHost s := by
  simp only [Bool.and_eq_true, Option.any_eq_true, decide_eq_true_eq] at h
  obtain ⟨⟨u, hu, hen⟩, t, ht, ⟨hr, hs⟩, hf⟩ := h
  have hend : t.program.length ≤ t.hostPc ∧ t.eng.busy = false := by simpa [State.finished] using hf
  have host : ∀ n, 0 < n → engineThenHost n = .host := fun n hn => by rw [engineThenHost, if_neg (by omega)]
  have stays : ∀ n, k + 1 ≤ n → runTurns engineThenHost n s = .next t := fun n hn =>
    runTurns_of_ended (eq_of_nextOf ht) hr hs hend.1 (fun m hm => host m (by omega)) hn
  refine ⟨fun n hb => ?_, fun n v hv hvf => ⟨max n k, ?_⟩⟩
  · obtain ⟨v, hv, hvb⟩ := hb (n + k + 1) (by omega)
    rw [stays _ (by omega)] at hv
    cases hv
    rw [hend.2] at hvb
    cases hvb
  · by_cases hn : k + 1 ≤ n
    · rw [stays n hn] at hv
      cases hv
      rw [hf] at hvf
      cases hvf
    · rw [max_eq_right (by omega)]
      exact ⟨u, by omega, eq_of_nextOf hu, by rw [host k hk]; exact hen⟩

theorem witness_FairRunsComplete :
    (machineRun vector1 [] []).Inv ∧ (machineRun vector1 [] []).rst = false ∧ vector1.busy = true ∧
    WeaklyFair inTurns (machineRun vector1 [] []) ∧ WeaklyFair (fun _ => .engine) (machineRun vector1 [] []) := by
  refine ⟨machineRun_inv vector1_ok _ _, rfl, rfl, fun n _ => ⟨2 * n + 1, by omega, ?_⟩, fun n _ => ⟨n, le_rfl, rfl⟩⟩
  rw [inTurns, if_neg (by omega)]

theorem witness_FairRunsComplete_wait :
    (machineRun vector1Last (opWait 0 3) []).Inv ∧ (machineRun vector1Last (opWait 0 3) []).rst = false ∧
    vector1Last.busy = true ∧
    (WeaklyFair engineThenHost (machineRun vector1Last (opWait 0 3) []) ∧
      KeepsStepping engineThenHost (machineRun vector1Last (opWait 0 3) [])) ∧
    ((machineRun vector1Last (opWait 0 3) []).program.drop 0).take 2 = opWait 0 3 :=
  ⟨machineRun_inv vector1Last_ok _ _, rfl, rfl, engineThenHost_settles 2 (by decide) (by decide), rfl⟩

theorem witness_FairRunsComplete_waitIrq :
    (machineRun vector1Last (opWaitIrq 0) []).Inv ∧ (machineRun vector1Last (opWaitIrq 0) []).rst = false ∧
    vector1Last.busy = true ∧
    (WeaklyFair engineThenHost (machineRun vector1Last (opWaitIrq 0) []) ∧
      KeepsStepping engineThenHost (machineRun vector1Last (opWaitIrq 0) [])) ∧
    ((machineRun vector1Last (opWaitIrq 0) []).program.drop 0).take 1 = opWaitIrq 0 :=
  ⟨machineRun_inv vector1Last_ok _ _, rfl, rfl, engineThenHost_settles 1 (by decide) (by decide), rfl⟩

theorem witness_HostMayPollAnyNumberOfTimes :
    (machineRun busyEngine (opWait 0 3) []).rst = false ∧ busyEngine.busy = true ∧
    varsWf (machineRun busyEngine (opWait 0 3) []).vars = true ∧
    (machineRun busyEngine (opWait 0 3) []).program = opWait 0 3 ∧
    (machineRun busyEngine (opWait 0 3) []).hostPc = 0 := by decide

end Sys2Proof.Tests
end

/-! Proofs of the family of spec/10_state.md: what reads show of the state (R25, R35), the frame of every
transaction (R17 to R29), and where `irq` and BUSY change (R21, R31). -/

namespace Sys2Proof.Machine

/-! ### STATUS and reads (R25, R60, R103) -/

theorem Mode.bit_eq_decide (m : Mode) : m.bit = decide (m = .decrypt) := by
  cases m <;> rfl

/-- STATUS, bit by bit (R60); bits 63 to 4 are hardwired to 0 (R25). -/
theorem Engine.statusWord_getLsbD (e : Engine) (i : Nat) :
    e.statusWord.getLsbD i =
      if i = 0 then e.busy else if i = 1 then e.done else if i = 2 then e.err
      else if i = 3 then e.mode.bit else false := by
  rw [Engine.statusWord, BitVec.getLsbD_setWidth, BitVec.getLsbD_append, BitVec.getLsbD_append,
    BitVec.getLsbD_append]
  match i with
  | 0 => simp
  | 1 => simp
  | 2 => simp
  | 3 => simp
  | i + 4 => simp

/-- STATUS is four bits, zero-extended. -/
theorem Engine.statusWord_lt (e : Engine) : e.statusWord.toNat < 16 := by
  rw [Engine.statusWord, BitVec.toNat_setWidth]
  exact (Nat.mod_le _ _).trans_lt (BitVec.isLt _)

/-- A STATUS read answers the STATUS word and does nothing else. -/
theorem exec_regRead_status (wdata : Word) (s : State) :
    exec (.regRead 0x08 wdata) s = .next (s.answer s.eng.statusWord) := by
  rw [exec_eq]
  exact congrArg (fun r => Host.Outcome.next (s.answer r)) (Engine.regRead_offset s.eng .status)

/-- Settles O24: the STATUS read's answer is the STATUS word, read off bit by bit. -/
theorem statusWordBits : Obligations.StatusWordBits := by
  intro wdata s
  have bit := s.eng.statusWord_getLsbD
  refine ⟨s.eng.statusWord, exec_regRead_status wdata s, bit 0, bit 1, bit 2, ?_, fun i hi => ?_,
    s.eng.statusWord_lt⟩
  · exact (bit 3).trans s.eng.mode.bit_eq_decide
  · rw [bit, if_neg (by omega), if_neg (by omega), if_neg (by omega), if_neg (by omega)]

/-- What a host can see of an engine is the same in both: the four STATUS fields and, while idle, DATA (R35,
R106). -/
structure Engine.SameVisible (e e' : Engine) : Prop where
  busy : e.busy = e'.busy
  done : e.done = e'.done
  err : e.err = e'.err
  mode : e.mode = e'.mode
  block : e.busy = false → e.data0 = e'.data0 ∧ e.data1 = e'.data1

/-- A DATA read tells the register only while idle (R106). -/
theorem Engine.SameVisible.readData {e e' : Engine} (h : e.SameVisible e') {r r' : Word}
    (hr : e.busy = false → r = r') : e.readData r = e'.readData r' := by
  cases hb : e.busy with
  | true => rw [readData_of_busy r hb, readData_of_busy r' (h.busy ▸ hb)]
  | false => rw [readData_of_idle r hb, readData_of_idle r' (h.busy ▸ hb), hr hb]

theorem Engine.SameVisible.readSlot {e e' : Engine} (h : e.SameVisible e') (t : Slot) :
    e.readSlot t = e'.readSlot t := by
  cases t with
  | status =>
    show e.statusWord = e'.statusWord
    rw [statusWord, statusWord, h.busy, h.done, h.err, h.mode]
  | data0 => exact h.readData fun hb => (h.block hb).1
  | data1 => exact h.readData fun hb => (h.block hb).2
  | _ => rfl

/-- Engines that look alike answer a read at any offset alike, aligned or not. -/
theorem Engine.SameVisible.regRead {e e' : Engine} (h : e.SameVisible e') (off : BitVec 7) :
    e.regRead off = e'.regRead off := by
  rw [Engine.regRead, Engine.regRead, h.readSlot]

/-- Settles O23: a read's answer is a function of what is visible. -/
theorem hiddenStateIsNotReadable : Obligations.HiddenStateIsNotReadable := by
  intro s s' t t' off wdata hbusy hdone herr hmode hblock ht ht'
  have h : s.eng.SameVisible s'.eng := ⟨hbusy, hdone, herr, hmode, hblock⟩
  cases ht
  cases ht'
  exact congrArg some (h.regRead off)

/-! ### CTRL writes (R89) -/

@[simp] theorem Engine.ctrlWrite_of_busy (C : Word) {e : Engine} (h : e.busy = true) :
    Engine.ctrlWrite C e = e.setErr :=
  Engine.ctrl_of_busy _ _ h

/-- All a CTRL write can do while idle: after CLR, what its CMD says (R89). -/
theorem Engine.ctrlWrite_cases (C : Word) {e : Engine} (h : e.busy = false) :
    (C.extractLsb' 0 2 = 0 ∧ Engine.ctrlWrite C e = Engine.command (cmdClr C) id e) ∨
    (C.extractLsb' 0 2 = 1 ∧ Engine.ctrlWrite C e = Engine.command (cmdClr C) (Engine.start .encrypt) e) ∨
    (C.extractLsb' 0 2 = 2 ∧ Engine.ctrlWrite C e = Engine.command (cmdClr C) (Engine.start .decrypt) e) ∨
    (C.extractLsb' 0 2 = 3 ∧ Engine.ctrlWrite C e = Engine.command (cmdClr C) Engine.setErr e) := by
  simp only [Engine.ctrlWrite, Engine.ctrl_of_idle _ _ h, cmd_eq_iff]
  cases cmdHi C <;> cases cmdLo C
  · exact .inl ⟨⟨rfl, rfl⟩, rfl⟩
  · exact .inr (.inl ⟨⟨rfl, rfl⟩, rfl⟩)
  · exact .inr (.inr (.inl ⟨⟨rfl, rfl⟩, rfl⟩))
  · exact .inr (.inr (.inr ⟨⟨rfl, rfl⟩, rfl⟩))

/-- No CTRL write stores to an operand: DATA and KEY stay (R17 to R19). -/
theorem Engine.ctrlWrite_operands (C : Word) (e : Engine) :
    (Engine.ctrlWrite C e).block = e.block ∧ (Engine.ctrlWrite C e).key = e.key := by
  cases hb : e.busy with
  | true => rw [ctrlWrite_of_busy C hb]; exact ⟨rfl, rfl⟩
  | false =>
    rcases ctrlWrite_cases C hb with ⟨_, he⟩ | ⟨_, he⟩ | ⟨_, he⟩ | ⟨_, he⟩ <;> rw [he] <;>
      cases cmdClr C <;> exact ⟨rfl, rfl⟩

/-- A CTRL write that starts no operation leaves the operation registers and BUSY alone (R21, R26 to R29). -/
theorem Engine.ctrlWrite_of_no_start {C : Word} (e : Engine)
    (h : ¬ (e.busy = false ∧ (C.extractLsb' 0 2 = 1 ∨ C.extractLsb' 0 2 = 2))) :
    (Engine.ctrlWrite C e).mode = e.mode ∧ (Engine.ctrlWrite C e).working = e.working ∧
      (Engine.ctrlWrite C e).iter = e.iter ∧ (Engine.ctrlWrite C e).busy = e.busy := by
  cases hb : e.busy with
  | true => rw [ctrlWrite_of_busy C hb]; exact ⟨rfl, rfl, rfl, hb⟩
  | false =>
    rcases ctrlWrite_cases C hb with ⟨_, he⟩ | ⟨hc, _⟩ | ⟨hc, _⟩ | ⟨_, he⟩
    · rw [he]; cases cmdClr C <;> exact ⟨rfl, rfl, rfl, hb⟩
    · exact absurd ⟨hb, .inl hc⟩ h
    · exact absurd ⟨hb, .inr hc⟩ h
    · rw [he]; cases cmdClr C <;> exact ⟨rfl, rfl, rfl, hb⟩

/-- DONE after a CTRL write: an accepted start or an accepted CLR clears it, nothing else touches it (R22). -/
theorem Engine.ctrlWrite_done (C : Word) (e : Engine) :
    (Engine.ctrlWrite C e).done =
      if e.busy = false ∧ (C.extractLsb' 0 2 = 1 ∨ C.extractLsb' 0 2 = 2 ∨ C.getLsbD 2 = true) then false
      else e.done := by
  cases hb : e.busy with
  | true => simp [hb]
  | false =>
    rw [show C.getLsbD 2 = cmdClr C from rfl]
    rcases ctrlWrite_cases C hb with ⟨hc, he⟩ | ⟨hc, he⟩ | ⟨hc, he⟩ | ⟨hc, he⟩ <;> rw [he, hc] <;>
      cases cmdClr C <;> simp

/-! ### Register writes (R109) -/

/-- A write that is no accepted start leaves the operation registers and BUSY alone (R21, R26 to R29). -/
theorem Engine.regWrite_of_no_start {off : BitVec 7} {v : Word} {e : Engine}
    (h : ¬ (off = 0 ∧ e.busy = false ∧ (v.extractLsb' 0 2 = 1 ∨ v.extractLsb' 0 2 = 2))) :
    (Engine.regWrite off v e).mode = e.mode ∧ (Engine.regWrite off v e).working = e.working ∧
      (Engine.regWrite off v e).iter = e.iter ∧ (Engine.regWrite off v e).busy = e.busy := by
  rcases regWrite_cases off v e with ⟨h0, he⟩ | ⟨_, hc⟩ | ⟨_, _, he⟩
  · rw [he]; exact e.ctrlWrite_of_no_start fun hs => h ⟨h0, hs⟩
  · rcases hc with ⟨_, he⟩ | ⟨_, he⟩ | ⟨_, he⟩ | ⟨_, he⟩ | ⟨_, he⟩ | ⟨_, he⟩ <;> rw [he] <;>
      exact ⟨rfl, rfl, rfl, rfl⟩
  · rw [he]; exact ⟨rfl, rfl, rfl, rfl⟩

/-- DONE after a write: only a start or a CLR written to CTRL while idle clears it, and no write sets it (R22). -/
theorem Engine.regWrite_done (off : BitVec 7) (v : Word) (e : Engine) :
    (Engine.regWrite off v e).done =
      if off = 0 ∧ e.busy = false ∧ (v.extractLsb' 0 2 = 1 ∨ v.extractLsb' 0 2 = 2 ∨ v.getLsbD 2 = true)
      then false else e.done := by
  rcases regWrite_flags off v e with ⟨hb, _, hd, _⟩ | ⟨_, h0, he⟩ | ⟨_, h0, _, hd, _⟩
  · rw [hd, if_neg (by simp [hb])]
  · rw [he, ctrlWrite_done]; simp [h0]
  · rw [hd, if_neg fun hc => h0 hc.1]

/-- The operand registers, each with the offset of its slot (R37). -/
def operandSlots : List ((Engine → Word) × BitVec 7) :=
  [(Engine.data0, 0x10), (Engine.data1, 0x18), (Engine.key0, 0x20), (Engine.key1, 0x28), (Engine.key2, 0x30),
    (Engine.key3, 0x38)]

/-- An operand register's slot is not CTRL's, is one of the writable ones, and neither `set_err()` nor a CTRL
write changes the register. -/
theorem operandSlots_spec {r : Engine → Word} {off : BitVec 7} (h : (r, off) ∈ operandSlots) :
    off ≠ 0 ∧ off ∈ [0x10, 0x18, 0x20, 0x28, 0x30, 0x38] ∧ (∀ e : Engine, r e.setErr = r e) ∧
      ∀ (C : Word) (e : Engine), r (Engine.ctrlWrite C e) = r e := by
  have ctrl : ∀ (f : Word × Word → Key → Word) (C : Word) (e : Engine),
      f (Engine.ctrlWrite C e).block (Engine.ctrlWrite C e).key = f e.block e.key := by
    intro f C e
    rw [(e.ctrlWrite_operands C).1, (e.ctrlWrite_operands C).2]
  simp only [operandSlots, List.mem_cons, Prod.mk.injEq, List.not_mem_nil, or_false] at h
  rcases h with ⟨rfl, rfl⟩ | ⟨rfl, rfl⟩ | ⟨rfl, rfl⟩ | ⟨rfl, rfl⟩ | ⟨rfl, rfl⟩ | ⟨rfl, rfl⟩
  · exact ⟨by decide, by decide, fun _ => rfl, ctrl fun b _ => b.1⟩
  · exact ⟨by decide, by decide, fun _ => rfl, ctrl fun b _ => b.2⟩
  · exact ⟨by decide, by decide, fun _ => rfl, ctrl fun _ k => k.k0⟩
  · exact ⟨by decide, by decide, fun _ => rfl, ctrl fun _ k => k.k1⟩
  · exact ⟨by decide, by decide, fun _ => rfl, ctrl fun _ k => k.k2⟩
  · exact ⟨by decide, by decide, fun _ => rfl, ctrl fun _ k => k.k3⟩

/-- An operand register after a write: the written word where the write is to its own slot while idle, and what it
was otherwise (R17 to R19). -/
theorem Engine.regWrite_operand {r : Engine → Word} {slot : BitVec 7} (h : (r, slot) ∈ operandSlots)
    (off : BitVec 7) (v : Word) (e : Engine) :
    r (Engine.regWrite off v e) = if off = slot ∧ e.busy = false then v else r e := by
  obtain ⟨hne, hmem, hErr, hCtrl⟩ := operandSlots_spec h
  rcases regWrite_cases off v e with ⟨h0, he⟩ | ⟨hb, hc⟩ | ⟨_, href, he⟩
  · rw [he, hCtrl, if_neg fun hs => hne (hs.1.symm.trans h0)]
  · -- each slot's write against each register: the two are the same slot, or the write is beside the register
    simp only [operandSlots, List.mem_cons, Prod.mk.injEq, List.not_mem_nil, or_false] at h
    rcases hc with ⟨rfl, he⟩ | ⟨rfl, he⟩ | ⟨rfl, he⟩ | ⟨rfl, he⟩ | ⟨rfl, he⟩ | ⟨rfl, he⟩ <;> rw [he] <;>
      rcases h with ⟨rfl, rfl⟩ | ⟨rfl, rfl⟩ | ⟨rfl, rfl⟩ | ⟨rfl, rfl⟩ | ⟨rfl, rfl⟩ | ⟨rfl, rfl⟩ <;> simp [hb]
  · have hrefused : ¬ (off = slot ∧ e.busy = false) := by
      rintro ⟨rfl, hb⟩
      rcases href with hbusy | hoff
      · rw [hb] at hbusy; cases hbusy
      · exact hoff hmem
    rw [he, hErr, if_neg hrefused]

/-- Settles O31: a read only answers, and a write changes what `Engine.regWrite` changes. -/
theorem instructionFrame : Obligations.InstructionFrame := by
  intro T s t h
  rw [exec_decode] at h
  cases hw : txnWrite T with
  | false =>
    rw [hw] at h
    cases h
    simp
  | true =>
    rw [hw] at h
    cases h
    refine ⟨⟨rfl, rfl, rfl, rfl, rfl, rfl, rfl⟩, fun _ => rfl, by simp, fun r off hr => ?_, fun hns => ?_,
      fun hnc => ?_⟩
    · simpa using Engine.regWrite_operand hr (txnOff T) (txnData T) s.eng
    · exact Engine.regWrite_of_no_start (by simpa using hns)
    · rw [State.onEngine_eng, Engine.regWrite_done, if_neg fun hc => hnc ⟨rfl, hc.1, hc.2.1⟩]

/-! ### Where BUSY and `irq` change (R21, R31) -/

/-- Settles O47: of all a step can do, only an accepted start raises BUSY. -/
theorem busyRisesOnlyAtAStart : Obligations.BusyRisesOnlyAtAStart := by
  intro s t hr h hidle hbusy
  rcases systemStep_cases hr h with ⟨_, _, he⟩ | ⟨_, _, he⟩ | ⟨_, _, he | ⟨_, T, hT, hw, he⟩⟩
  · rw [he] at hbusy; cases hbusy
  · rw [he, Engine.turn_of_idle hidle, hidle] at hbusy; cases hbusy
  · rw [he, hidle] at hbusy; cases hbusy
  · have hstart : txnOff T = 0 ∧ s.eng.busy = false ∧
        ((txnData T).extractLsb' 0 2 = 1 ∨ (txnData T).extractLsb' 0 2 = 2) := by
      by_contra hns
      obtain ⟨_, _, _, hsame⟩ := Engine.regWrite_of_no_start hns
      rw [he, hsame, hidle] at hbusy
      cases hbusy
    obtain ⟨hoff, _, hcmd⟩ := hstart
    exact ⟨T, hT, hw, hoff, hcmd⟩

/-- DONE after the engine's turn: set by the 64th iteration, else what it was (R22, R98). -/
theorem Engine.turn_done (e : Engine) :
    e.turn.done = if e.busy = true ∧ e.iter = 63 then true else e.done := by
  have last : e.iter + 1 = 64 ↔ e.iter = 63 := by bv_omega
  cases hb : e.busy with
  | false => simp [hb]
  | true =>
    rw [turn_of_busy hb]
    by_cases h : e.iter = 63
    · rw [engineStep_of_last (last.mpr h), if_pos ⟨rfl, h⟩, complete_done]
    · rw [engineStep_of_more (mt last.mp h), if_neg fun hl => h hl.2, iterate_done]

/-- All a step can do to DONE, with the pin released before it: a reset clears it; the engine's 64th iteration
sets it; an accepted start or CLR clears it; every other step leaves it. -/
theorem step_done_cases {s t : State} (hr : s.rst = false) (h : step s = .next t) :
    (t.rst = true ∧ s.turn = .rstAssert ∧ t.eng.done = false) ∨
    (s.turn = .engine ∧ s.eng.busy = true ∧ s.eng.iter = 63 ∧ t.eng.done = true) ∨
    (s.turn ≠ .engine ∧ s.eng.busy = false ∧ t.eng.done = false ∧
      ∃ T, s.nextTxn = some T ∧ txnWrite T = true ∧ txnOff T = 0 ∧
        ((txnData T).extractLsb' 0 2 = 1 ∨ (txnData T).extractLsb' 0 2 = 2 ∨ (txnData T).getLsbD 2 = true)) ∨
    (¬ (s.turn = .engine ∧ s.eng.busy = true ∧ s.eng.iter = 63) ∧ t.eng.done = s.eng.done) := by
  rcases systemStep_cases hr h with ⟨hrst, ht, he⟩ | ⟨_, ht, he⟩ | ⟨_, ht, he | ⟨_, T, hT, hw, he⟩⟩
  · exact .inl ⟨hrst, ht, by rw [he]; rfl⟩
  · rw [he, Engine.turn_done]
    split
    · next hlast => exact .inr (.inl ⟨ht, hlast.1, hlast.2, rfl⟩)
    · next hmore => exact .inr (.inr (.inr ⟨fun hl => hmore hl.2, rfl⟩))
  · exact .inr (.inr (.inr ⟨fun hl => ht hl.1, by rw [he]⟩))
  · rw [he, Engine.regWrite_done]
    split
    · next hc =>
      obtain ⟨hoff, hidle, hcmd⟩ := hc
      exact .inr (.inr (.inl ⟨ht, hidle, rfl, T, hT, hw, hoff, hcmd⟩))
    · exact .inr (.inr (.inr ⟨fun hl => ht hl.1, rfl⟩))

/-- Settles O46: `irq` is DONE, and each clause is read off what a step can do to DONE. -/
theorem irqChangesAtItsPoints : Obligations.IrqChangesAtItsPoints := by
  intro s t hr h
  unfold Engine.irq
  rcases step_done_cases hr h with ⟨hrst, ht, hd⟩ | ⟨ht, hb, hi, hd⟩ | ⟨ht, hidle, hd, hT⟩ | ⟨hne, hd⟩
  · simp [hrst, ht, hd]
  · simp [ht, hb, hi, hd]
  · exact ⟨rfl, fun _ h1 => absurd (hd.symm.trans h1) Bool.false_ne_true, fun he => absurd he ht,
      fun _ _ => .inr ⟨hidle, hT⟩, fun _ hb => absurd (hidle.symm.trans hb) Bool.false_ne_true⟩
  · rw [hd]
    exact ⟨rfl, fun h0 h1 => absurd (h0.symm.trans h1) Bool.false_ne_true, fun he hb hi => absurd ⟨he, hb, hi⟩ hne,
      fun h1 h0 => absurd (h0.symm.trans h1) Bool.false_ne_true, fun _ _ => rfl⟩

end Sys2Proof.Machine

/-! Proofs of the family of spec/20_memory.md: reads and writes done twice (R43, R44), the window an access reaches
(R36, R38, R41), and engines side by side on a platform (R52, R129). -/

namespace Sys2Proof.Machine

/-! ### Transactions done twice (R43, R44) -/

@[simp] theorem Engine.setErr_setErr (e : Engine) : e.setErr.setErr = e.setErr := rfl

/-- A write that keeps BUSY and is itself idempotent stays so with the check for BUSY before it:
the second write meets the BUSY the first one met. -/
theorem Engine.whenIdle_idempotent {f : Engine → Engine} {e : Engine} (hbusy : (f e).busy = e.busy)
    (hf : f (f e) = f e) : whenIdle f (whenIdle f e) = whenIdle f e := by
  cases hb : e.busy with
  | true => rw [whenIdle_of_busy f hb, whenIdle_of_busy f (e := e.setErr) hb, setErr_setErr]
  | false => rw [whenIdle_of_idle f hb, whenIdle_of_idle f (hbusy.trans hb), hf]

/-- A write to a slot, done twice, unless it is a command that is accepted (R44). -/
theorem Engine.writeSlot_idempotent (v : Word) {t : Slot} {e : Engine} (h : t ≠ .ctrl ∨ e.busy = true) :
    writeSlot v t (writeSlot v t e) = writeSlot v t e := by
  cases t with
  | ctrl =>
    have hb : e.busy = true := h.resolve_left fun hne => hne rfl
    rw [writeSlot, ctrlWrite_of_busy v hb, ctrlWrite_of_busy v (e := e.setErr) hb, setErr_setErr]
  | status | reserved => rfl
  | data0 | data1 | key0 | key1 | key2 | key3 => exact whenIdle_idempotent rfl rfl

/-- A write at an offset, done twice, unless it is a command that is accepted (R44). -/
theorem Engine.regWrite_idempotent {off : BitVec 7} (v : Word) {e : Engine} (h : off ≠ 0 ∨ e.busy = true) :
    regWrite off v (regWrite off v e) = regWrite off v e := by
  cases ha : offAligned off with
  | false => rw [regWrite_misaligned v e ha, regWrite_misaligned v e.setErr ha, setErr_setErr]
  | true =>
    obtain ⟨t, rfl⟩ : ∃ t : Slot, t.offset = off := ⟨offSlot off, offset_offSlot ha⟩
    have hslot : t ≠ .ctrl ∨ e.busy = true := h.imp_left (mt (congrArg Slot.offset))
    rw [regWrite_offset, regWrite_offset, writeSlot_idempotent v hslot]

/-- Settles O28: a write changes the engine alone, and `Engine.regWrite` is idempotent there. -/
theorem writesOtherThanCommandsAreIdempotent : Obligations.WritesOtherThanCommandsAreIdempotent := by
  intro off v s h
  refine ⟨s.onEngine (Engine.regWrite off v), execRegWrite_eq off v s, ?_⟩
  have twice : (s.onEngine (Engine.regWrite off v)).onEngine (Engine.regWrite off v) =
      s.onEngine (Engine.regWrite off v) :=
    congrArg (fun e => { s with eng := e }) (Engine.regWrite_idempotent v h)
  exact (execRegWrite_eq off v _).trans (congrArg Host.Outcome.next twice)

/-- Settles O22: a read only puts its answer on the response lines, and the answer is the engine's alone. -/
theorem readsAreIdempotent : Obligations.ReadsAreIdempotent := by
  intro off wdata wdata' s
  refine ⟨s.answer (s.eng.regRead off), execRegRead_eq off wdata s, State.answer_eng _ s, ?_⟩
  have twice : (s.answer (s.eng.regRead off)).answer ((s.answer (s.eng.regRead off)).eng.regRead off) =
      s.answer (s.eng.regRead off) := by rw [State.answer_eng]; rfl
  exact (execRegRead_eq off wdata' _).trans (congrArg Host.Outcome.next twice)

/-! ### The window of an engine (R36, R38, R41) -/

/-- The platform address is one of the 128 of engine `unit`'s window (R36). -/
def InWindow (unit addr : Nat) : Prop :=
  Config.engineBase unit ≤ addr ∧ addr < Config.engineBase unit + 128

theorem not_inWindow_iff {unit addr : Nat} :
    ¬ InWindow unit addr ↔ addr < Config.engineBase unit ∨ Config.engineBase unit + 128 ≤ addr := by
  unfold InWindow
  omega

theorem inWindow_of_offset (unit : Nat) (off : BitVec 7) :
    InWindow unit (Config.engineBase unit + off.toNat) :=
  ⟨Nat.le_add_right _ _, Nat.add_lt_add_left off.isLt _⟩

/-- No address is in two engines' windows (R129). -/
theorem not_inWindow_of_ne {m n addr : Nat} (hne : m ≠ n) (h : InWindow m addr) : ¬ InWindow n addr := by
  obtain ⟨hlo, hhi⟩ := h
  rw [not_inWindow_iff]
  rcases Nat.lt_or_gt_of_ne hne with hlt | hgt
  · have := engineBase_le hlt
    omega
  · have := engineBase_le hgt
    omega

section
variable {unit : Nat} (write : Bool) {addr bytes : Nat} (wdata : Word)

/-- An access outside the window is none of this block's (R41). -/
theorem busWord_of_outside (h : ¬ InWindow unit addr) :
    busWord unit write addr bytes wdata = .error .outsideWindow :=
  if_neg h

/-- An access in the window that is not 8 bytes wide is no transaction (R38). -/
theorem busWord_of_not_whole (h : InWindow unit addr) (hb : bytes ≠ 8) :
    busWord unit write addr bytes wdata = .error .notWholeWord :=
  (if_pos h).trans (if_neg hb)

/-- An 8-byte access in the window is the transaction at its distance from ENGINE_BASE (R36). -/
theorem busWord_of_whole (h : InWindow unit addr) :
    busWord unit write addr 8 wdata =
      .ok (txnWord write (BitVec.ofNat 7 (addr - Config.engineBase unit)) (if write then wdata else 0)) :=
  (if_pos h).trans (if_pos rfl)

end

/-- A transaction of an engine is at an address of its window. -/
theorem inWindow_of_busWord_ok {unit : Nat} {write : Bool} {addr bytes : Nat} {wdata : Word} {T : TxnWord}
    (h : busWord unit write addr bytes wdata = .ok T) : InWindow unit addr := by
  by_contra hout
  rw [busWord_of_outside write wdata hout] at h
  cases h

/-- Why an access is no transaction: for its place, or for its width at a place in the window. -/
theorem busWord_error_cases {unit : Nat} {write : Bool} {addr bytes : Nat} {wdata : Word} {r : Refusal}
    (h : busWord unit write addr bytes wdata = .error r) :
    (r = .outsideWindow ∧ ¬ InWindow unit addr) ∨ (r = .notWholeWord ∧ InWindow unit addr ∧ bytes ≠ 8) := by
  by_cases hin : InWindow unit addr
  · by_cases hb : bytes = 8
    · subst hb
      rw [busWord_of_whole write wdata hin] at h
      cases h
    · rw [busWord_of_not_whole write wdata hin hb] at h
      cases h
      exact .inr ⟨rfl, hin, hb⟩
  · rw [busWord_of_outside write wdata hin] at h
    cases h
    exact .inl ⟨rfl, hin⟩

section
variable {write : Bool} {addr bytes : Nat} {wdata : Word} (dst : Option Nat) {s : State}

/-- An access that is a transaction of this engine is that transaction issued. -/
theorem hostOp_access_of_ok {T : TxnWord} (h : busWord s.unit write addr bytes wdata = .ok T) :
    hostOp (.access write addr bytes wdata dst) s = hostOp (.issue T dst) s := by
  simp only [hostOp, h]

/-- An access that is no transaction of this engine is refused. -/
theorem hostOp_access_of_error {r : Refusal} (h : busWord s.unit write addr bytes wdata = .error r) :
    hostOp (.access write addr bytes wdata dst) s = .refused r := by
  simp only [hostOp, h]

end

/-- Settles O56: `busWord` says of every address and width which transaction the access is, or why it is none. -/
theorem windowPlacesAccesses : Obligations.WindowPlacesAccesses := by
  refine ⟨fun write off wdata dst s => ?_,
    fun write addr bytes wdata dst s => ⟨fun hout => ?_, fun hlo hhi hb => ?_⟩⟩
  · have hT := busWord_of_whole write wdata (inWindow_of_offset s.unit off)
    rw [Nat.add_sub_cancel_left, BitVec.ofNat_toNat, BitVec.setWidth_eq] at hT
    exact hostOp_access_of_ok dst hT
  · exact hostOp_access_of_error dst (busWord_of_outside write wdata (not_inWindow_iff.mpr hout))
  · exact hostOp_access_of_error dst (busWord_of_not_whole write wdata ⟨hlo, hhi⟩ hb)

/-! ### Where a step stops (R118, R120) -/

/-- All an operation of the host can answer: a next state, or the refusal of an access that is no transaction of
this engine. -/
theorem hostOp_next_or_refused (op : HostOp) (s : State) :
    (∃ t, hostOp op s = .next t) ∨
      ∃ write addr bytes wdata dst r, op = .access write addr bytes wdata dst ∧
        busWord s.unit write addr bytes wdata = .error r ∧ hostOp op s = .refused r := by
  cases op with
  | issue T dst => exact .inl ⟨_, issueTxn_eq T dst s⟩
  | access write addr bytes wdata dst =>
    cases hw : busWord s.unit write addr bytes wdata with
    | ok T => exact .inl ⟨_, (hostOp_access_of_ok dst hw).trans (issueTxn_eq T dst s)⟩
    | error r => exact .inr ⟨write, addr, bytes, wdata, dst, r, rfl, hw, hostOp_access_of_error dst hw⟩
  | ifGoto h b v label => exact .inl ⟨_, rfl⟩
  | ifIrq v label => exact .inl ⟨_, rfl⟩

/-- The same of a step: it answers a next state, or it is the host's turn and its access is refused. -/
theorem step_next_or_refused (s : State) :
    (∃ t, step s = .next t) ∨
      ∃ write addr bytes wdata dst r, s.turn = .host ∧
        s.program[s.hostPc]? = some (.access write addr bytes wdata dst) ∧
        busWord s.unit write addr bytes wdata = .error r ∧ step s = .refused r := by
  have hstep : step s = mapNext State.holdReset (performTurn s.turn s.holdReset.takeTurn) := by
    rw [step_eq, systemStep, State.turn_holdReset]
  cases ht : s.turn with
  | engine => exact .inl ⟨_, by rw [hstep, ht]; rfl⟩
  | rstAssert => exact .inl ⟨_, by rw [hstep, ht]; rfl⟩
  | rstRelease => exact .inl ⟨_, by rw [hstep, ht]; rfl⟩
  | host =>
    rw [hstep, ht, performTurn, hostTurn, State.takeTurn_program, State.takeTurn_hostPc, State.holdReset_program,
      State.holdReset_hostPc]
    cases hp : s.program[s.hostPc]? with
    | none => exact .inl ⟨_, rfl⟩
    | some op =>
      rcases hostOp_next_or_refused op s.holdReset.takeTurn with ⟨t, he⟩ | ⟨w, a, n, v, d, r, rfl, hw, he⟩
      · exact .inl ⟨t.holdReset, by simp only [he, mapNext_next]⟩
      · rw [State.takeTurn_unit, State.holdReset_unit] at hw
        exact .inr ⟨w, a, n, v, d, r, rfl, rfl, hw, by simp only [he, mapNext_refused]⟩

/-- Settles O55: a step stops only where `busWord` refuses the host's access, for its place or its width. -/
theorem stepStopsOnlyOnForeignAccesses : Obligations.StepStopsOnlyOnForeignAccesses := by
  intro s
  rcases step_next_or_refused s with hnext | ⟨write, addr, bytes, wdata, dst, r, ht, hp, hw, hstep⟩
  · exact .inl hnext
  · refine .inr ⟨write, addr, bytes, wdata, dst, ht, hp, ?_⟩
    rcases busWord_error_cases hw with ⟨rfl, hout⟩ | ⟨rfl, ⟨hlo, hhi⟩, hb⟩
    · exact .inl ⟨hstep, not_inWindow_iff.mp hout⟩
    · exact .inr ⟨hstep, hlo, hhi, hb⟩

/-! ### Engines on one platform (R52, R129) -/

/-- All a step at a place of a platform can do: nothing where no machine stands, and otherwise that machine's own
step, put back at its place. -/
theorem Platform.stepAt_cases {p q : Platform} {n : Nat} (h : Platform.stepAt n p = .next q) :
    (p[n]? = none ∧ q = p) ∨ ∃ s t, p[n]? = some s ∧ step s = .next t ∧ q = p.set n t := by
  unfold Platform.stepAt at h
  cases hp : p[n]? with
  | none =>
    rw [hp] at h
    cases h
    exact .inl ⟨rfl, rfl⟩
  | some s =>
    simp only [hp] at h
    cases hs : systemStep s with
    | fault r => exact nomatch r
    | refused r => rw [hs] at h; cases h
    | next t =>
      rw [hs] at h
      cases h
      exact .inr ⟨s, t, rfl, hs, rfl⟩

/-- A step leaves every machine answering for its own place's window: none changes its unit. -/
theorem Platform.wf_set {p : Platform} {n : Nat} {s t : State} (hp : p[n]? = some s) (hs : step s = .next t)
    (h : p.wf) : Platform.wf (p.set n t) := by
  intro m u hu
  by_cases hm : n = m
  · subst hm
    rw [List.getElem?_set_self (List.getElem?_eq_some_iff.mp hp).1] at hu
    cases hu
    obtain ⟨hunit, _, _⟩ := systemStep_frame hs
    exact hunit.trans (h n s hp)
  · rw [List.getElem?_set_ne hm] at hu
    exact h m u hu

/-- Settles O58: a step replaces the machine at its own place alone, and no address is in two windows. -/
theorem instancesShareNothing : Obligations.InstancesShareNothing := by
  refine ⟨fun p q n h => ?_, fun m n write addr bytes wdata T hne hT => ?_⟩
  · rcases Platform.stepAt_cases h with ⟨hp, rfl⟩ | ⟨s, t, hp, hs, rfl⟩
    · refine ⟨rfl, fun _ _ => rfl, fun s hs => ?_, id⟩
      rw [hp] at hs
      cases hs
    · refine ⟨List.length_set, fun m hm => List.getElem?_set_ne hm.symm, fun s' hs' => ?_, Platform.wf_set hp hs⟩
      rw [hp] at hs'
      cases hs'
      exact ⟨t, hs, List.getElem?_set_self (List.getElem?_eq_some_iff.mp hp).1⟩
  · exact busWord_of_outside write wdata (not_inWindow_of_ne hne (inWindow_of_busWord_ok hT))

end Sys2Proof.Machine

/-! Proofs of the family of spec/30_encoding.md: decoding and encoding undo one another, every word has one row
(R54 to R62), the ignored command bits (R58), the one length of a transaction (R63), that every instruction completes
(R62), and the host's branches (R64). -/

namespace Sys2Proof

/-! ### The four command rows as one family, by CMD (R56) -/

/-- The command instruction with CMD `{hi, lo}` (R56). -/
def commandInstr (hi lo clr : Bool) (ignored : BitVec 61) : Instr :=
  match hi, lo with
  | false, false => .nop clr ignored
  | false, true => .encrypt clr ignored
  | true, false => .decrypt clr ignored
  | true, true => .cmdReserved clr ignored

/-- The command row with CMD `{hi, lo}` (R61). -/
def commandRow (hi lo : Bool) : OpcodeRow :=
  match hi, lo with
  | false, false => rowNop
  | false, true => rowEncrypt
  | true, false => rowDecrypt
  | true, true => rowCmdReserved

theorem decodeCommand_eq (C : Word) :
    decodeCommand C = commandInstr (cmdHi C) (cmdLo C) (cmdClr C) (cmdIgnored C) := by
  unfold decodeCommand
  split <;> rename_i hhi hlo <;> rw [hhi, hlo] <;> rfl

theorem encode_commandInstr (hi lo clr : Bool) (g : BitVec 61) :
    encode (commandInstr hi lo clr g) = txnWord true 0 (cmdWord g clr hi lo) := by
  cases hi <;> cases lo <;> rfl

theorem commandInstr_wf (hi lo clr : Bool) (g : BitVec 61) : (commandInstr hi lo clr g).wf = true := by
  cases hi <;> cases lo <;> rfl

theorem commandInstr_row (hi lo clr : Bool) (g : BitVec 61) : (commandInstr hi lo clr g).row = commandRow hi lo := by
  cases hi <;> cases lo <;> rfl

/-! ### What a word decodes to, by `K` and `OFF` (R61) -/

theorem decode_of_read {T : TxnWord} (h : txnWrite T = false) : decode T = .regRead (txnOff T) (txnData T) := by
  simp [decode, h]

theorem decode_of_write {T : TxnWord} (h : txnWrite T = true) (ho : txnOff T ≠ 0) :
    decode T = .regWrite (txnOff T) (txnData T) := by
  rw [decode, if_pos h, if_neg ho]

theorem decode_of_ctrlWrite {T : TxnWord} (h : txnWrite T = true) (ho : txnOff T = 0) :
    decode T = commandInstr (cmdHi (txnData T)) (cmdLo (txnData T)) (cmdClr (txnData T)) (cmdIgnored (txnData T)) := by
  rw [decode, if_pos h, if_pos ho, decodeCommand_eq]

/-- A command word written to CTRL decodes to the command its fields spell. -/
theorem decode_cmdWord (hi lo clr : Bool) (g : BitVec 61) :
    decode (txnWord true 0 (cmdWord g clr hi lo)) = commandInstr hi lo clr g := by
  rw [decode_of_ctrlWrite (by simp) (by simp)]
  simp

/-! ### Decoding and encoding undo one another (R54 to R56) -/

theorem decode_encode_commandInstr (hi lo clr : Bool) (g : BitVec 61) :
    decode (encode (commandInstr hi lo clr g)) = commandInstr hi lo clr g := by
  rw [encode_commandInstr, decode_cmdWord]

/-- Settles O1, row by row: the fields of the word an instruction is encoded as are the instruction's own. -/
theorem decodeOfEncodeIsInstruction : Obligations.DecodeOfEncodeIsInstruction := by
  intro i hwf
  cases i with
  | regRead off w =>
    rw [encode, decode_of_read (by simp)]
    simp
  | regWrite off v =>
    have hoff : off ≠ 0 := by simpa [Instr.wf] using hwf
    rw [encode, decode_of_write (by simp) (by simpa using hoff)]
    simp
  | nop clr g => exact decode_encode_commandInstr false false clr g
  | encrypt clr g => exact decode_encode_commandInstr false true clr g
  | decrypt clr g => exact decode_encode_commandInstr true false clr g
  | cmdReserved clr g => exact decode_encode_commandInstr true true clr g

/-- A word is put together again from its fields, whichever row they are read for. -/
theorem encode_decode (T : TxnWord) : encode (decode T) = T := by
  have hT := txnWord_fields T
  cases hw : txnWrite T with
  | false =>
    rw [hw] at hT
    rw [decode_of_read hw]
    exact hT
  | true =>
    rw [hw] at hT
    by_cases ho : txnOff T = 0
    · rw [ho] at hT
      rw [decode_of_ctrlWrite hw ho, encode_commandInstr, cmdWord_fields]
      exact hT
    · rw [decode_of_write hw ho]
      exact hT

/-- Settles O2. -/
theorem encodeOfDecodeIsWord : Obligations.EncodeOfDecodeIsWord := encode_decode

/-! ### Every word has one row (R61, R62) -/

theorem decode_wf (T : TxnWord) : (decode T).wf = true := by
  cases hw : txnWrite T with
  | false => rw [decode_of_read hw]; rfl
  | true =>
    by_cases ho : txnOff T = 0
    · rw [decode_of_ctrlWrite hw ho, commandInstr_wf]
    · rw [decode_of_write hw ho]
      simpa [Instr.wf] using ho

theorem Instr.row_mem_opcodeTable (i : Instr) : i.row ∈ opcodeTable := by
  cases i <;> simp [Instr.row, opcodeTable]

theorem Instr.row_matchesWord_encode {i : Instr} (h : i.wf = true) : i.row.matchesWord (encode i) = true := by
  cases i with
  | regRead off w => exact Laws.RowMatch.regRead off w h
  | regWrite off v => exact Laws.RowMatch.regWrite off v h
  | nop clr g => exact Laws.RowMatch.nop clr g h
  | encrypt clr g => exact Laws.RowMatch.encrypt clr g h
  | decrypt clr g => exact Laws.RowMatch.decrypt clr g h
  | cmdReserved clr g => exact Laws.RowMatch.cmdReserved clr g h

theorem mem_opcodeTable_cases {r : OpcodeRow} (h : r ∈ opcodeTable) :
    r = rowRegRead ∨ r = rowRegWrite ∨ ∃ hi lo, r = commandRow hi lo := by
  simp only [opcodeTable, List.mem_cons, List.not_mem_nil, or_false] at h
  rcases h with h | h | h | h | h | h
  · exact .inl h
  · exact .inr (.inl h)
  · exact .inr (.inr ⟨false, false, h⟩)
  · exact .inr (.inr ⟨false, true, h⟩)
  · exact .inr (.inr ⟨true, false, h⟩)
  · exact .inr (.inr ⟨true, true, h⟩)

/-- The row REG_READ looks at `K` alone. -/
theorem rowRegRead_matchesWord_iff (T : TxnWord) : rowRegRead.matchesWord T = true ↔ txnWrite T = false := by
  rw [OpcodeRow.matchesWord, beq_iff_eq, rowRegRead, and_transactionMask,
    show (0x000000000000000000 : TxnWord) = txnWord false 0 0 by decide, txnWord_inj]
  simp

/-- The row REG_WRITE looks at `K` alone. -/
theorem rowRegWrite_matchesWord_iff (T : TxnWord) : rowRegWrite.matchesWord T = true ↔ txnWrite T = true := by
  rw [OpcodeRow.matchesWord, beq_iff_eq, rowRegWrite, and_transactionMask,
    show (0x800000000000000000 : TxnWord) = txnWord true 0 0 by decide, txnWord_inj]
  simp

/-- A command row looks at `K`, `OFF` and CMD. -/
theorem commandRow_matchesWord_iff (hi lo : Bool) (T : TxnWord) :
    (commandRow hi lo).matchesWord T = true ↔
      txnWrite T = true ∧ txnOff T = 0 ∧ cmdHi (txnData T) = hi ∧ cmdLo (txnData T) = lo := by
  have hmask : (commandRow hi lo).mask = 0xFF0000000000000003 := by cases hi <;> cases lo <;> rfl
  have hvalue : (commandRow hi lo).value = txnWord true 0 (cmdWord 0 false hi lo) := by
    cases hi <;> cases lo <;> decide
  rw [OpcodeRow.matchesWord, beq_iff_eq, hmask, hvalue, and_commandMask, txnWord_inj]
  refine and_congr_right fun _ => and_congr_right fun _ => ⟨fun h => ?_, fun ⟨hhi, hlo⟩ => by rw [hhi, hlo]⟩
  exact ⟨by simpa using congrArg cmdHi h, by simpa using congrArg cmdLo h⟩

/-- Settles O3: of the six rows, the ones a word matches are read off `K`, `OFF` and CMD, as its decoding is. -/
theorem everyWordHasOneRow : Obligations.EveryWordHasOneRow := by
  intro T
  have hmatch := Instr.row_matchesWord_encode (decode_wf T)
  rw [encode_decode] at hmatch
  refine ⟨decode_wf T, Instr.row_mem_opcodeTable _, hmatch, fun r hr hm => ?_⟩
  rcases mem_opcodeTable_cases hr with rfl | rfl | ⟨hi, lo, rfl⟩
  · rw [rowRegRead_matchesWord_iff] at hm
    exact .inl (by rw [decode_of_read hm, Instr.row])
  · rw [rowRegWrite_matchesWord_iff] at hm
    by_cases ho : txnOff T = 0
    · exact .inr ⟨rfl, hm, ho⟩
    · exact .inl (by rw [decode_of_write hm ho, Instr.row])
  · obtain ⟨hw, ho, rfl, rfl⟩ := (commandRow_matchesWord_iff hi lo T).mp hm
    exact .inl (by rw [decode_of_ctrlWrite hw ho, commandInstr_row])

/-! ### Byte strings (R63) -/

theorem wordOfBytes_ok_iff (bs : List Byte) : (∃ T, wordOfBytes bs = .ok T) ↔ bs.length = 9 := by
  constructor
  · rintro ⟨T, h⟩
    unfold wordOfBytes at h
    split at h
    · rfl
    · cases h
  · intro h
    match bs, h with
    | [b8, b7, b6, b5, b4, b3, b2, b1, b0], _ => exact ⟨_, rfl⟩

/-- Settles O5: a string decodes where it spells a word, for every word decodes. -/
theorem byteStringsDecodeAtNineBytes : Obligations.ByteStringsDecodeAtNineBytes := by
  intro bs
  rw [← wordOfBytes_ok_iff, decodeBytes]
  cases wordOfBytes bs <;> simp [Except.map]

end Sys2Proof

namespace Sys2Proof.Machine

/-! ### The ignored command bits (R58) -/

/-- `CtrlWrite` reads the low three bits of its command word alone. -/
theorem Engine.ctrlWrite_congr {C C' : Word} (h : C.extractLsb' 0 3 = C'.extractLsb' 0 3) :
    Engine.ctrlWrite C = Engine.ctrlWrite C' := by
  have bit : ∀ n, n < 3 → C.getLsbD n = C'.getLsbD n := by
    intro n hn
    simpa [BitVec.getLsbD_extractLsb', hn] using congrArg (·.getLsbD n) h
  have hclr : cmdClr C = cmdClr C' := bit 2 (by omega)
  have hhi : cmdHi C = cmdHi C' := bit 1 (by omega)
  have hlo : cmdLo C = cmdLo C' := bit 0 (by omega)
  rw [Engine.ctrlWrite, Engine.ctrlWrite, hclr, hhi, hlo]

/-- A word written to CTRL runs `CtrlWrite` of it, whichever command row it decodes to (R89). -/
theorem exec_decode_ctrlWrite (C : Word) (s : State) :
    exec (decode (txnWord true 0 C)) s = .next (s.onEngine (Engine.ctrlWrite C)) := by
  have hctrl : Engine.regWrite 0 C = Engine.ctrlWrite C := funext (Engine.regWrite_ctrl C)
  rw [exec_decode, txnWrite_txnWord, if_pos rfl, txnOff_txnWord, txnData_txnWord, hctrl]

/-- Settles O19: a CTRL write runs `CtrlWrite` of its data. -/
theorem ignoredCommandBitsHaveNoEffect : Obligations.IgnoredCommandBitsHaveNoEffect := by
  intro C C' s h
  rw [exec_decode_ctrlWrite, exec_decode_ctrlWrite, Engine.ctrlWrite_congr h]

/-! ### Instructions complete, and the host's branches (R62, R64) -/

/-- Settles O32: an instruction changes the engine and the response lines, and nothing around them. -/
theorem everyInstructionCompletes : Obligations.EveryInstructionCompletes := fun i s =>
  ⟨_, exec_eq i s, rfl, rfl, rfl, rfl, rfl, rfl, rfl⟩

/-- Settles O57: the step's rules for the two branches. -/
theorem hostBranchMovesTheHostOnly : Obligations.HostBranchMovesTheHostOnly :=
  ⟨fun _ _ _ _ _ hr ht hp => systemStep_of_branch hr ht hp, fun _ _ _ hr ht hp => systemStep_of_irqBranch hr ht hp⟩

end Sys2Proof.Machine

/-! Proofs of the family of spec/40_feistel_datapath.md: the shifts, F, the half-rounds and the iterations as
arithmetic modulo 2^64 (R68 to R78), and what the operands of an operation cannot reach (R85, R86). -/

namespace Sys2Proof.Machine

/-! ### The control registers and the operands (R85, R144) -/

/-- The registers that say where an operation stands are the same in both engines; key, block, working registers
and MODE may differ. -/
structure Engine.SameControl (e e' : Engine) : Prop where
  busy : e.busy = e'.busy
  done : e.done = e'.done
  err : e.err = e'.err
  iter : e.iter = e'.iter

/-- Two transitions treat the control registers alike: from engines that agree on them they lead to engines that
agree on them again. -/
def Engine.ControlAlike (f f' : Engine → Engine) : Prop :=
  ∀ ⦃e e' : Engine⦄, e.SameControl e' → (f e).SameControl (f' e')

namespace Engine.ControlAlike

theorem setErr : ControlAlike Engine.setErr Engine.setErr :=
  fun _ _ h => ⟨h.busy, h.done, rfl, h.iter⟩

theorem clearFlags : ControlAlike Engine.clearFlags Engine.clearFlags :=
  fun _ _ h => ⟨h.busy, rfl, rfl, h.iter⟩

/-- The two starts are alike: the mode they store is no control register. -/
theorem start (m m' : Mode) : ControlAlike (Engine.start m) (Engine.start m') :=
  fun _ _ h => ⟨rfl, rfl, h.err, rfl⟩

theorem iterate : ControlAlike Engine.iterate Engine.iterate :=
  fun _ _ h => ⟨h.busy, h.done, h.err, congrArg (· + 1) h.iter⟩

theorem complete : ControlAlike Engine.complete Engine.complete :=
  fun _ _ h => ⟨rfl, rfl, h.err, rfl⟩

/-- Whether a step completes is ITER's alone to say. -/
theorem engineStep : ControlAlike Engine.engineStep Engine.engineStep := by
  intro e e' h
  by_cases hl : e.iter + 1 = 64
  · rw [engineStep_of_last hl, engineStep_of_last (h.iter ▸ hl)]
    exact complete (iterate h)
  · rw [engineStep_of_more hl, engineStep_of_more (h.iter ▸ hl)]
    exact iterate h

theorem turn : ControlAlike Engine.turn Engine.turn := by
  intro e e' h
  cases hb : e.busy with
  | true =>
    rw [turn_of_busy hb, turn_of_busy (h.busy ▸ hb)]
    exact engineStep h
  | false =>
    rw [turn_of_idle hb, turn_of_idle (h.busy ▸ hb)]
    exact h

section
variable {f f' : Engine → Engine} (hf : ControlAlike f f')
include hf

/-- Whether a write is refused is BUSY's alone to say. -/
theorem whenIdle : ControlAlike (Engine.whenIdle f) (Engine.whenIdle f') := by
  intro e e' h
  cases hb : e.busy with
  | true =>
    rw [whenIdle_of_busy f hb, whenIdle_of_busy f' (h.busy ▸ hb)]
    exact setErr h
  | false =>
    rw [whenIdle_of_idle f hb, whenIdle_of_idle f' (h.busy ▸ hb)]
    exact hf h

theorem command (clr : Bool) : ControlAlike (Engine.command clr f) (Engine.command clr f') := by
  intro e e' h
  cases clr with
  | false => exact hf h
  | true => exact hf (clearFlags h)

theorem ctrl (clr : Bool) : ControlAlike (Engine.ctrl clr f) (Engine.ctrl clr f') :=
  whenIdle (command hf clr)

end

theorem ctrlWrite (C : Word) : ControlAlike (Engine.ctrlWrite C) (Engine.ctrlWrite C) := by
  have hcmd : ControlAlike (Engine.cmdEffect (cmdHi C) (cmdLo C)) (Engine.cmdEffect (cmdHi C) (cmdLo C)) := by
    cases cmdHi C <;> cases cmdLo C
    · exact fun _ _ h => h
    · exact start .encrypt .encrypt
    · exact start .decrypt .decrypt
    · exact setErr
  exact ctrl hcmd (cmdClr C)

/-- Writes of two words to one slot: only CTRL looks at the word, the others store it or set ERR. -/
theorem writeSlot {v v' : Word} {t : Slot} (hv : t ≠ .ctrl ∨ v = v') :
    ControlAlike (Engine.writeSlot v t) (Engine.writeSlot v' t) := by
  cases t with
  | ctrl =>
    obtain rfl : v = v' := hv.resolve_left fun hne => hne rfl
    exact ctrlWrite v
  | status | reserved => exact setErr
  | data0 | data1 | key0 | key1 | key2 | key3 => exact whenIdle fun _ _ h => ⟨h.busy, h.done, h.err, h.iter⟩

/-- The same for writes at one offset, aligned or not. -/
theorem regWrite {off : BitVec 7} {v v' : Word} (hv : off ≠ 0 ∨ v = v') :
    ControlAlike (Engine.regWrite off v) (Engine.regWrite off v') := by
  intro e e' h
  cases ha : offAligned off with
  | false =>
    rw [regWrite_misaligned v e ha, regWrite_misaligned v' e' ha]
    exact setErr h
  | true =>
    obtain ⟨t, rfl⟩ : ∃ t : Slot, t.offset = off := ⟨offSlot off, offset_offSlot ha⟩
    rw [regWrite_offset, regWrite_offset]
    exact writeSlot (hv.imp_left (mt (congrArg Slot.offset))) h

/-- One instruction on two engines. -/
theorem engineEffect (i : Instr) : ControlAlike (engineEffect i) (engineEffect i) := by
  cases i with
  | regRead off w => exact fun _ _ h => h
  | regWrite off v => exact regWrite (.inr rfl)
  | nop clr g => exact ctrl (fun _ _ h => h) clr
  | encrypt clr g => exact ctrl (start .encrypt .encrypt) clr
  | decrypt clr g => exact ctrl (start .decrypt .decrypt) clr
  | cmdReserved clr g => exact ctrl setErr clr

end Engine.ControlAlike

theorem eng_of_exec {i : Instr} {s t : State} (h : exec i s = .next t) : t.eng = engineEffect i s.eng := by
  rw [exec_eq] at h
  cases h
  rfl

/-- Settles O52: the engine's turn, and each of the three pairs of instructions, treat the control registers alike. -/
theorem controlIsIndependentOfData : Obligations.ControlIsIndependentOfData := by
  intro s s' hbusy hdone herr hiter
  have h : s.eng.SameControl s'.eng := ⟨hbusy, hdone, herr, hiter⟩
  refine ⟨?_, fun i i' t t' ht ht' hi => ?_⟩
  · obtain ⟨hb, hd, he, hn⟩ := Engine.ControlAlike.turn h
    exact ⟨hb, hd, he, hn⟩
  · have halike : Engine.ControlAlike (engineEffect i) (engineEffect i') := by
      rcases hi with rfl | ⟨off, v, v', hoff, rfl, rfl⟩ | ⟨clr, g, rfl, rfl⟩
      · exact .engineEffect _
      · exact .regWrite (.inl hoff)
      · exact .ctrl (.start .encrypt .decrypt) clr
    obtain ⟨hb, hd, he, hn⟩ := halike h
    rw [eng_of_exec ht, eng_of_exec ht']
    exact ⟨hb, hd, he, hn⟩

/-! ### The shifts (R68, R69) -/

theorem shl4_toNat (x : Word) : (shl4 x).toNat = x.toNat * 16 % 2 ^ 64 := by
  rw [shl4, BitVec.toNat_shiftLeft, Nat.shiftLeft_eq]

theorem shr5_toNat (x : Word) : (shr5 x).toNat = x.toNat / 32 := by
  rw [shr5, BitVec.toNat_ushiftRight, Nat.shiftRight_eq_div_pow]

theorem shl4_getLsbD (x : Word) {i : Nat} (hi : i < 64) :
    (shl4 x).getLsbD i = (decide (4 ≤ i) && x.getLsbD (i - 4)) := by
  rw [shl4, BitVec.getLsbD_shiftLeft, decide_eq_true hi, Bool.true_and, ← decide_not]
  simp only [not_lt]

/-- Above bit 58 the bit that would move down is beyond the word, so 0. -/
theorem shr5_getLsbD (x : Word) (i : Nat) :
    (shr5 x).getLsbD i = (decide (i ≤ 58) && x.getLsbD (i + 5)) := by
  rw [shr5, BitVec.getLsbD_ushiftRight, Nat.add_comm]
  by_cases hi : i ≤ 58
  · simp [hi]
  · rw [BitVec.getLsbD_of_ge x _ (by omega), Bool.and_false]

/-- Settles O6. -/
theorem shiftsMatchTheirArithmetic : Obligations.ShiftsMatchTheirArithmetic :=
  ⟨fun x => ⟨shl4_toNat x, shr5_toNat x⟩, fun x i hi => ⟨shl4_getLsbD x hi, shr5_getLsbD x i⟩, by decide⟩

/-! ### The mixing function (R72) -/

/-- F as arithmetic; the sum with the left-shifted term wraps once, whether or not the shift did. -/
theorem mix_toNat (x s ka kb : Word) : (mix x s ka kb).toNat =
    ((x.toNat * 16 + ka.toNat) % 2 ^ 64) ^^^ ((x.toNat + s.toNat) % 2 ^ 64) ^^^
      ((x.toNat / 32 + kb.toNat) % 2 ^ 64) := by
  rw [mix, BitVec.toNat_xor, BitVec.toNat_xor, BitVec.toNat_add, BitVec.toNat_add, BitVec.toNat_add, shl4_toNat,
    shr5_toNat, Nat.mod_add_mod]

theorem mix_zero (s : Word) : mix 0 s 0 0 = s := by
  simp [mix, shl4, shr5]

/-- Settles O7. -/
theorem mixingFunctionValue : Obligations.MixingFunctionValue :=
  ⟨mix_toNat, by decide, by decide, mix_zero, by decide⟩

/-! ### Half-rounds and iterations (R73 to R78) -/

/-- Subtraction modulo 2^64, written as an addition. -/
theorem sub_toNat (a b : Word) : (a - b).toNat = (a.toNat + (2 ^ 64 - b.toNat)) % 2 ^ 64 := by
  rw [BitVec.toNat_sub, Nat.add_comm]

/-- Settles O8: the half-rounds are a sum or a difference with F, and the iterations are their definitions' three
statements in order. -/
theorem halfRoundsAndIterations : Obligations.HalfRoundsAndIterations := by
  refine ⟨fun y z s ka kb => ?_, fun y z sum k0 k1 k2 k3 => ?_, fun y z sum k0 k1 k2 k3 => ?_, by decide⟩
  · exact ⟨BitVec.toNat_add y _, BitVec.toNat_add z _, sub_toNat z _, sub_toNat y _⟩
  · exact ⟨_, _, _, rfl, rfl, rfl, rfl⟩
  · exact ⟨_, _, _, rfl, rfl, rfl, rfl⟩

/-! ### Which key words reach which half-round (R86) -/

/-- Settles O12: each half-round's equation names the key words it reads. -/
theorem keyWordsEnterTheirHalfRounds : Obligations.KeyWordsEnterTheirHalfRounds := by
  refine ⟨fun k a b w => ⟨?_, ?_, encIter_z _ w, decIter_y _ w⟩, fun x s ka kb => rfl⟩
  · rw [encIter_y, encIter_y]
  · rw [decIter_z, decIter_z]

end Sys2Proof.Machine

/-! Proofs of the family of spec/41_engine_commands.md: what each command does (R89 to R95), the engine's step and
its completion (R96 to R98), the invariant that every step keeps (R33), and what follows of the results (R98, R102). -/

namespace Sys2Proof.Machine

/-! ### The four commands (R89 to R95) -/

/-- The bits of a CTRL write, written out field by field as one concatenation (R54, R55). -/
theorem commandBits_eq_txnWord (hi lo clr : Bool) (g : BitVec 61) :
    1#1 ++ 0#7 ++ g ++ BitVec.ofBool clr ++ (BitVec.ofBool hi ++ BitVec.ofBool lo) =
      txnWord true 0 (cmdWord g clr hi lo) := by
  apply BitVec.eq_of_getLsbD_eq
  intro i hi
  rw [txnWord_getLsbD, cmdWord_getLsbD]
  simp only [BitVec.getLsbD_append]
  match i with
  | 0 => simp
  | 1 => simp
  | 2 => simp
  | i + 3 =>
    rcases Nat.lt_trichotomy i 68 with h | rfl | h
    · by_cases h' : i < 61
      · simp [h']
      · simp [h', show i - 61 < 7 by omega, show ¬ i + 3 < 64 by omega, show i + 3 < 71 by omega]
    · simp
    · omega

/-- A CTRL write decodes to the command of its CMD, whatever its other bits (R56, R61). -/
theorem decode_commandBits (hi lo clr : Bool) (g : BitVec 61) :
    decode (1#1 ++ 0#7 ++ g ++ BitVec.ofBool clr ++ (BitVec.ofBool hi ++ BitVec.ofBool lo)) =
      commandInstr hi lo clr g := by
  rw [commandBits_eq_txnWord]
  exact decode_cmdWord hi lo clr g

/-- A command is `CtrlWrite` with its own CLR and CMD (R89). -/
theorem exec_commandInstr (hi lo clr : Bool) (g : BitVec 61) (s : State) :
    exec (commandInstr hi lo clr g) s = .next (s.onEngine (Engine.ctrl clr (Engine.cmdEffect hi lo))) := by
  cases hi <;> cases lo <;> rfl

/-- R95: while busy every command sets ERR and does nothing else. -/
theorem exec_commandInstr_of_busy (hi lo clr : Bool) (g : BitVec 61) {s : State} (h : s.eng.busy = true) :
    exec (commandInstr hi lo clr g) s = .next { s with eng := s.eng.setErr } := by
  rw [exec_commandInstr, State.onEngine, Engine.ctrl_of_busy _ _ h]

/-- R89: while idle CLR acts, and then the command. -/
theorem exec_commandInstr_of_idle (hi lo clr : Bool) (g : BitVec 61) {s : State} (h : s.eng.busy = false) :
    exec (commandInstr hi lo clr g) s =
      .next { s with eng := Engine.command clr (Engine.cmdEffect hi lo) s.eng } := by
  rw [exec_commandInstr, State.onEngine, Engine.ctrl_of_idle _ _ h]

/-- Settles O13. -/
theorem nopEffect : Obligations.NopEffect := fun clr g _ =>
  ⟨decode_commandBits false false clr g,
    fun h => (exec_commandInstr_of_idle false false clr g h).trans (by cases clr <;> rfl),
    fun h => exec_commandInstr_of_busy false false clr g h⟩

/-- Settles O14. -/
theorem encryptEffect : Obligations.EncryptEffect := fun clr g _ =>
  ⟨decode_commandBits false true clr g,
    fun h => (exec_commandInstr_of_idle false true clr g h).trans (by cases clr <;> rfl),
    fun h => exec_commandInstr_of_busy false true clr g h⟩

/-- Settles O15. -/
theorem decryptEffect : Obligations.DecryptEffect := fun clr g _ =>
  ⟨decode_commandBits true false clr g,
    fun h => (exec_commandInstr_of_idle true false clr g h).trans (by cases clr <;> rfl),
    fun h => exec_commandInstr_of_busy true false clr g h⟩

/-- Settles O16. -/
theorem cmdReservedEffect : Obligations.CmdReservedEffect := fun clr g _ =>
  ⟨decode_commandBits true true clr g,
    fun h => (exec_commandInstr_of_idle true true clr g h).trans (by cases clr <;> rfl),
    fun h => exec_commandInstr_of_busy true true clr g h⟩

/-- REG_WRITE at offset 0 is `CtrlWrite` too (R109). -/
theorem exec_regWrite_ctrl (C : Word) (s : State) :
    exec (.regWrite 0 C) s = .next (s.onEngine (Engine.ctrlWrite C)) :=
  congrArg (fun f => Host.Outcome.next (s.onEngine f)) (funext (Engine.regWrite_ctrl C))

/-- Settles O17: both forms of a CTRL write are `CtrlWrite`, which refuses while busy. -/
theorem ctrlWritesRefusedWhileBusy : Obligations.CtrlWritesRefusedWhileBusy := by
  intro C s h
  rw [exec_decode_ctrlWrite, exec_regWrite_ctrl, State.onEngine, Engine.ctrlWrite_of_busy C h]
  exact ⟨rfl, rfl⟩

/-- Settles O18: a command's effect is its CMD's effect after CLR, or a refusal that does not look at CLR. -/
theorem clrActsBeforeTheCommand : Obligations.ClrActsBeforeTheCommand := by
  intro cmd hcmd g s
  obtain ⟨hi, lo, rfl⟩ : ∃ hi lo, cmd = commandInstr hi lo := by
    simp only [List.mem_cons, List.not_mem_nil, or_false] at hcmd
    rcases hcmd with rfl | rfl | rfl | rfl
    · exact ⟨false, false, rfl⟩
    · exact ⟨false, true, rfl⟩
    · exact ⟨true, false, rfl⟩
    · exact ⟨true, true, rfl⟩
  refine ⟨fun hidle => ?_, fun hbusy => ?_⟩
  · rw [exec_commandInstr_of_idle hi lo true g hidle, exec_commandInstr_of_idle hi lo false g (by exact hidle)]
    rfl
  · rw [exec_commandInstr_of_busy hi lo true g hbusy, exec_commandInstr_of_busy hi lo false g hbusy]

/-- `CtrlWrite` while idle, by the number its CMD is (R89). -/
theorem Engine.ctrlWrite_of_cmd {C : Word} {n : BitVec 2} {e : Engine} (h : e.busy = false)
    (hc : C.extractLsb' 0 2 = n) :
    Engine.ctrlWrite C e = Engine.command (cmdClr C) (Engine.cmdEffect (n.getLsbD 1) (n.getLsbD 0)) e := by
  obtain ⟨hhi, hlo⟩ := (cmd_eq_iff C n).mp hc
  rw [ctrlWrite, ctrl_of_idle _ _ h, hhi, hlo]

/-- Settles O20: the engine after the write is `CtrlWrite`'s, and each case of CMD is that command's effect after
CLR. -/
theorem ctrlWriteDispatch : Obligations.CtrlWriteDispatch := fun C s =>
  ⟨_, Engine.ctrlWrite C s.eng, rfl, fun hb => Engine.ctrlWrite_of_busy C hb,
    fun hb hc => Engine.ctrlWrite_of_cmd hb hc, fun hb hc => Engine.ctrlWrite_of_cmd hb hc,
    fun hb hc => Engine.ctrlWrite_of_cmd hb hc, fun hb hc => Engine.ctrlWrite_of_cmd hb hc,
    exec_decode_ctrlWrite C s, exec_regWrite_ctrl C s⟩

/-! ### The engine's own step (R96 to R98) -/

/-- The 64th iteration is the one that finds ITER at 63 (R98); seven bits hold both numbers (R28). -/
theorem iter_add_one_eq_64_iff (i : BitVec 7) : i + 1 = 64 ↔ i = 63 := by
  bv_omega

/-- The engine's listed turn, with the pin released. -/
theorem step_of_listed_engine {s : State} {ts : List Turn} (hr : s.rst = false) (hs : s.schedule = .engine :: ts) :
    step s = .next { s with schedule := ts, eng := s.eng.turn } := by
  rw [step_eq, systemStep_of_engine hr (State.turn_of_listed hs), State.takeTurn_of_listed hs]

/-- Settles O34. -/
theorem idleEngineHasNoStep : Obligations.IdleEngineHasNoStep := by
  intro s ts hr hs hb
  rw [step_of_listed_engine hr hs, Engine.turn_of_idle hb]

/-- Settles O33: the turn is one iteration, and the completion after it where ITER was 63. -/
theorem engineStepIteratesAndCompletes : Obligations.EngineStepIteratesAndCompletes := by
  intro s ts w hr hs hb hw
  obtain rfl : w = iterOnce s.eng.mode s.eng.key s.eng.working := by
    rw [hw]
    cases s.eng.mode <;> rfl
  rw [step_of_listed_engine hr hs, Engine.turn_of_busy hb]
  refine ⟨fun hmore => ?_, fun hlast => ?_⟩
  · have hne : s.eng.iter + 1 ≠ 64 := by bv_omega
    rw [Engine.engineStep_of_more hne]
    rfl
  · rw [Engine.engineStep_of_last ((iter_add_one_eq_64_iff _).mpr hlast)]
    exact ⟨_, rfl, rfl, rfl⟩

/-! ### The accumulator, and decryption against encryption (R81 to R83) -/

/-- Each encryption iteration adds DELTA (R75). -/
theorem iterMany_encrypt_sum (k : Key) (n : Nat) (w : Working) :
    (iterMany .encrypt k n w).sum = w.sum + BitVec.ofNat 64 n * delta := by
  induction n with
  | zero => simp
  | succ n ih => rw [iterMany_succ, iterOnce_encrypt, encIter_sum, ih, mul_delta_succ, BitVec.add_assoc]

/-- Each decryption iteration takes DELTA away (R78). -/
theorem iterMany_decrypt_sum (k : Key) (n : Nat) (w : Working) :
    (iterMany .decrypt k n w).sum = w.sum - BitVec.ofNat 64 n * delta := by
  induction n with
  | zero => simp
  | succ n ih => rw [iterMany_succ, iterOnce_decrypt, decIter_sum, ih, mul_delta_succ, BitVec.sub_sub]

/-- What is left of SUM_DEC_INIT after `n` decryption iterations. -/
theorem sumDecInit_sub_mul_delta {n : Nat} (h : n ≤ 64) :
    sumDecInit - BitVec.ofNat 64 n * delta = BitVec.ofNat 64 (64 - n) * delta := by
  have hsplit : BitVec.ofNat 64 (64 - n) * delta + BitVec.ofNat 64 n * delta = sumDecInit := by
    rw [sumDecInit_eq, ← BitVec.add_mul, BitVec.ofNat_add_ofNat, Nat.sub_add_cancel h]
  rw [← hsplit, BitVec.add_sub_cancel]

theorem Working.eq_of_fields {w w' : Working} (hy : w.y = w'.y) (hz : w.z = w'.z) (hs : w.sum = w'.sum) :
    w = w' :=
  calc w = ⟨w.y, w.z, w.sum⟩ := rfl
    _ = w' := by rw [hy, hz, hs]

/-- DEC_ITER takes back the half-rounds of ENC_ITER, last first, and then SUM (R75, R78). -/
theorem decIter_encIter (k : Key) (w : Working) : decIter k (encIter k w) = w := by
  have hz : (decIter k (encIter k w)).z = w.z := by
    rw [decIter_z, encIter_z, encIter_sum, BitVec.add_sub_cancel]
  have hy : (decIter k (encIter k w)).y = w.y := by
    rw [decIter_y, hz, encIter_y, encIter_sum, BitVec.add_sub_cancel]
  exact Working.eq_of_fields hy hz (BitVec.add_sub_cancel w.sum delta)

/-- So do any number of them. -/
theorem iterMany_decrypt_encrypt (k : Key) (n : Nat) (w : Working) :
    iterMany .decrypt k n (iterMany .encrypt k n w) = w := by
  induction n with
  | zero => rfl
  | succ n ih =>
    rw [iterMany_succ_front, iterMany_succ, iterOnce_encrypt, iterOnce_decrypt, decIter_encIter, ih]

/-- D undoes E (R83): decryption starts where encryption ended, SUM at 64 times DELTA among it. -/
theorem decryptBlock_encryptBlock (k : Key) (p : Word × Word) : decryptBlock k (encryptBlock k p) = p := by
  have hend : ∀ w : Working, w.sum = 0 →
      (⟨(iterMany .encrypt k 64 w).y, (iterMany .encrypt k 64 w).z, sumDecInit⟩ : Working) =
        iterMany .encrypt k 64 w := by
    intro w hw
    refine Working.eq_of_fields rfl rfl ?_
    rw [iterMany_encrypt_sum, hw, zero_add, sumDecInit_eq]
  rw [decryptBlock, encryptBlock, transform_eq, transform_eq, sumInit_decrypt, hend _ rfl, iterMany_decrypt_encrypt]

/-! ### A whole operation (R98, R99, R102) -/

/-- The 64 engine steps after a start: the completion of the 64 iterations. -/
theorem engineSteps_start_64 (m : Mode) (e : Engine) :
    Engine.engineSteps 64 (Engine.start m e) =
      ((Engine.start m e).setWorking (iterMany m e.key 64 ⟨e.data0, e.data1, sumInit m⟩)).complete := by
  have hlast : Engine.engineSteps 64 (Engine.start m e) =
      (Engine.engineSteps 63 (Engine.start m e)).engineStep := rfl
  rw [hlast, engineSteps_start m e 63 (by omega), Engine.engineStep_of_last (by rfl), iterMany_succ]
  rfl

/-- The engine after the 64 steps holds the operation's result, idle, with the key and ERR it was started with. -/
theorem engineSteps_start_result (m : Mode) (e : Engine) :
    (Engine.engineSteps 64 (Engine.start m e)).block = transform m e.key e.block ∧
      (Engine.engineSteps 64 (Engine.start m e)).busy = false ∧
      (Engine.engineSteps 64 (Engine.start m e)).key = e.key ∧
      (Engine.engineSteps 64 (Engine.start m e)).err = e.err := by
  rw [engineSteps_start_64, transform_eq]
  exact ⟨rfl, rfl, rfl, rfl⟩

/-- The two starts while idle, with CLR not set (R92, R93). -/
theorem exec_encrypt_of_idle (g : BitVec 61) {s : State} (h : s.eng.busy = false) :
    exec (.encrypt false g) s = .next { s with eng := Engine.start .encrypt s.eng } :=
  exec_commandInstr_of_idle false true false g h

theorem exec_decrypt_of_idle (g : BitVec 61) {s : State} (h : s.eng.busy = false) :
    exec (.decrypt false g) s = .next { s with eng := Engine.start .decrypt s.eng } :=
  exec_commandInstr_of_idle true false false g h

/-- Settles O38: each start is accepted, and takes the result of the one before it as its block. -/
theorem chainedOperations : Obligations.ChainedOperations := by
  intro s hidle
  obtain ⟨hblock, hbusy, hkey, herr⟩ := engineSteps_start_result .encrypt s.eng
  obtain ⟨hblock₂, _, _, herr₂⟩ :=
    engineSteps_start_result .encrypt (Engine.engineSteps 64 (Engine.start .encrypt s.eng))
  obtain ⟨hblock₃, _, _, herr₃⟩ :=
    engineSteps_start_result .decrypt (Engine.engineSteps 64 (Engine.start .encrypt s.eng))
  refine ⟨_, _, _, exec_encrypt_of_idle 0 hidle, exec_encrypt_of_idle 0 hbusy, exec_decrypt_of_idle 0 hbusy, ?_, ?_,
    herr₂.trans herr, herr₃.trans herr⟩
  · rw [hblock₂, hkey, hblock]
    rfl
  · rw [hblock₃, hkey, hblock]
    exact decryptBlock_encryptBlock _ _

/-! ### The invariant (R33, R97, R132) -/

/-- While busy every write is refused (R95, R112, R113). -/
theorem Engine.regWrite_of_busy (off : BitVec 7) (v : Word) {e : Engine} (h : e.busy = true) :
    Engine.regWrite off v e = e.setErr := by
  rcases regWrite_cases off v e with ⟨_, he⟩ | ⟨hidle, _⟩ | ⟨_, _, he⟩
  · rw [he, ctrlWrite_of_busy v h]
  · rw [h] at hidle
    cases hidle
  · exact he

/-- All a write can do while idle, as far as the operation registers go: start an operation, or leave them as they
are. -/
theorem Engine.regWrite_start_or_idle (off : BitVec 7) (v : Word) {e : Engine} (h : e.busy = false) :
    (∃ m e₀, Engine.regWrite off v e = Engine.start m e₀) ∨
      (Engine.regWrite off v e).busy = false ∧ (Engine.regWrite off v e).iter = e.iter := by
  by_cases hs : off = 0 ∧ e.busy = false ∧ (v.extractLsb' 0 2 = 1 ∨ v.extractLsb' 0 2 = 2)
  · obtain ⟨rfl, _, hcmd⟩ := hs
    rw [regWrite_ctrl]
    rcases hcmd with hc | hc
    · exact .inl ⟨.encrypt, _, ctrlWrite_of_cmd h hc⟩
    · exact .inl ⟨.decrypt, _, ctrlWrite_of_cmd h hc⟩
  · obtain ⟨_, _, hiter, hbusy⟩ := regWrite_of_no_start hs
    exact .inr ⟨hbusy.trans h, hiter⟩

/-- The engine's part of the invariant: R33, and the computation in flight. -/
def Engine.Sound (e : Engine) : Prop := e.Consistent ∧ e.OnTrack

/-- While idle it says only that ITER is 0. -/
theorem Engine.sound_iff_of_idle {e : Engine} (h : e.busy = false) : e.Sound ↔ e.iter = 0 := by
  have hnot : e.busy ≠ true := by simp [h]
  exact ⟨fun hs => hs.1.idle_iter h, fun hi =>
    ⟨{ idle_iter := fun _ => hi
       busy_iter := fun hb => absurd hb hnot
       done_idle := fun _ => h
       sum_encrypt := fun hb => absurd hb hnot
       sum_decrypt := fun hb => absurd hb hnot }, fun hb => absurd hb hnot⟩⟩

/-- While busy it says where the computation stands; what R33 says of SUM follows from it. -/
theorem Engine.sound_iff_of_busy {e : Engine} (h : e.busy = true) :
    e.Sound ↔ e.done = false ∧ e.iter.toNat ≤ 63 ∧
      e.working = iterMany e.mode e.key e.iter.toNat ⟨e.data0, e.data1, sumInit e.mode⟩ := by
  constructor
  · rintro ⟨hc, ht⟩
    obtain ⟨hi, hw⟩ := ht h
    have hd : e.done ≠ true := fun hd => Bool.false_ne_true ((hc.done_idle hd).symm.trans h)
    exact ⟨Bool.eq_false_of_not_eq_true hd, hi, hw⟩
  · rintro ⟨hd, hi, hw⟩
    have hsum : e.sum = (iterMany e.mode e.key e.iter.toNat ⟨e.data0, e.data1, sumInit e.mode⟩).sum :=
      congrArg Working.sum hw
    exact
      ⟨{ idle_iter := fun hb => absurd (h.symm.trans hb) (by decide)
         busy_iter := fun _ => hi
         done_idle := fun hd' => absurd (hd.symm.trans hd') (by decide)
         sum_encrypt := fun _ hm => by rw [hsum, hm, iterMany_encrypt_sum, sumInit_encrypt, zero_add]
         sum_decrypt := fun _ hm => by
           rw [hsum, hm, iterMany_decrypt_sum, sumInit_decrypt, sumDecInit_sub_mul_delta (by omega)] },
        fun _ => ⟨hi, hw⟩⟩

theorem Engine.sound_reset : Engine.reset.Sound :=
  (sound_iff_of_idle rfl).mpr rfl

/-- A start meets the invariant from any engine: no iteration has been made, and Y, Z and SUM hold its operands. -/
theorem Engine.sound_start (m : Mode) (e : Engine) : (Engine.start m e).Sound :=
  (sound_iff_of_busy rfl).mpr ⟨rfl, Nat.zero_le _, rfl⟩

/-- The engine's turn keeps the invariant: one more iteration has been made, or the operation is over. -/
theorem Engine.Sound.turn {e : Engine} (h : e.Sound) : e.turn.Sound := by
  cases hb : e.busy with
  | false => rwa [turn_of_idle hb]
  | true =>
    obtain ⟨hd, hi, hw⟩ := (sound_iff_of_busy hb).mp h
    rw [turn_of_busy hb]
    by_cases hlast : e.iter + 1 = 64
    · rw [engineStep_of_last hlast]
      exact (sound_iff_of_idle rfl).mpr rfl
    · have hnext : (e.iter + 1).toNat = e.iter.toNat + 1 ∧ e.iter.toNat + 1 ≤ 63 := by bv_omega
      rw [engineStep_of_more hlast]
      refine (sound_iff_of_busy (by exact hb)).mpr ⟨hd, ?_, ?_⟩
      · rw [iterate_iter, hnext.1]
        exact hnext.2
      · rw [working_iterate, iterate_iter, hnext.1, iterMany_succ, hw]
        rfl

/-- A write keeps the invariant: it is refused, starts an operation, or finds and leaves the engine idle. -/
theorem Engine.Sound.regWrite {e : Engine} (h : e.Sound) (off : BitVec 7) (v : Word) :
    (Engine.regWrite off v e).Sound := by
  cases hb : e.busy with
  | true =>
    rw [regWrite_of_busy off v hb]
    exact (sound_iff_of_busy (e := e.setErr) hb).mpr ((sound_iff_of_busy hb).mp h)
  | false =>
    rcases regWrite_start_or_idle off v hb with ⟨m, e₀, he⟩ | ⟨hidle, hiter⟩
    · rw [he]
      exact sound_start m e₀
    · exact (sound_iff_of_idle hidle).mpr (hiter.trans ((sound_iff_of_idle hb).mp h))

/-- Every step keeps the engine's part of the invariant. -/
theorem step_keeps_sound {s t : State} (hs : s.eng.Sound) (h : step s = .next t) : t.eng.Sound := by
  cases hr : s.rst with
  | true =>
    rw [systemStep_of_asserted hr h]
    exact Engine.sound_reset
  | false =>
    rcases systemStep_cases hr h with ⟨_, _, he⟩ | ⟨_, _, he⟩ | ⟨_, _, he | ⟨_, T, _, _, he⟩⟩ <;> rw [he]
    · exact Engine.sound_reset
    · exact hs.turn
    · exact hs
    · exact hs.regWrite _ _

/-- The engine is at its reset values after every step that leaves the pin asserted (R132). -/
theorem step_holds_reset {s t : State} (h : step s = .next t) (ht : t.rst = true) : t.eng = Engine.reset := by
  cases hr : s.rst with
  | true => exact systemStep_of_asserted hr h
  | false =>
    rcases systemStep_cases hr h with ⟨_, _, he⟩ | ⟨hrel, _⟩ | ⟨hrel, _⟩
    · exact he
    · rw [ht] at hrel
      cases hrel
    · rw [ht] at hrel
      cases hrel

/-- Settles O42: each part of the invariant is kept by itself. -/
theorem stepKeepsTheInvariant : Obligations.StepKeepsTheInvariant := by
  rintro s t ⟨hc, ho, _, hv⟩ h
  obtain ⟨hc', ho'⟩ := step_keeps_sound ⟨hc, ho⟩ h
  obtain ⟨_, _, hvars⟩ := systemStep_frame h
  exact ⟨hc', ho', step_holds_reset h, hvars hv⟩

/-! ### The result, from its completion on (R98, R48) -/

/-- A step turns BUSY off, with no reset, only as the completion in the 64th iteration. -/
theorem step_busy_falls {s t : State} (hr : s.rst = false) (h : step s = .next t) (hb : s.eng.busy = true)
    (hidle : t.eng.busy = false) (hrt : t.rst = false) :
    s.eng.iter = 63 ∧ t.eng = s.eng.iterate.complete := by
  rcases systemStep_cases hr h with ⟨hrst, _⟩ | ⟨_, _, he⟩ | ⟨_, _, he | ⟨_, T, _, _, he⟩⟩
  · rw [hrst] at hrt
    cases hrt
  · rw [Engine.turn_of_busy hb] at he
    by_cases hlast : s.eng.iter + 1 = 64
    · exact ⟨(iter_add_one_eq_64_iff _).mp hlast, he.trans (Engine.engineStep_of_last hlast)⟩
    · rw [he, Engine.engineStep_of_more hlast, Engine.iterate_busy, hb] at hidle
      cases hidle
  · rw [he, hb] at hidle
    cases hidle
  · rw [he, Engine.regWrite_of_busy _ _ hb, Engine.setErr_busy, hb] at hidle
    cases hidle

/-- The engine is idle with this block in DATA. -/
def Engine.IdleWith (e : Engine) (b : Word × Word) : Prop := e.busy = false ∧ e.block = b

/-- A write that starts nothing and is not to DATA leaves an idle engine idle with the same block. -/
theorem Engine.IdleWith.regWrite {e : Engine} {b : Word × Word} (h : e.IdleWith b) {off : BitVec 7} {v : Word}
    (h0 : off ≠ 0x10) (h1 : off ≠ 0x18) (hs : ¬ (off = 0 ∧ (v.extractLsb' 0 2 = 1 ∨ v.extractLsb' 0 2 = 2))) :
    (Engine.regWrite off v e).IdleWith b := by
  obtain ⟨hidle, hblock⟩ := h
  obtain ⟨_, _, _, hbusy⟩ := regWrite_of_no_start (off := off) (v := v) (e := e) fun hst => hs ⟨hst.1, hst.2.2⟩
  have hd0 : (Engine.regWrite off v e).data0 = e.data0 :=
    (regWrite_operand (r := Engine.data0) (slot := 0x10) (by simp [operandSlots]) off v e).trans
      (if_neg fun hc => h0 hc.1)
  have hd1 : (Engine.regWrite off v e).data1 = e.data1 :=
    (regWrite_operand (r := Engine.data1) (slot := 0x18) (by simp [operandSlots]) off v e).trans
      (if_neg fun hc => h1 hc.1)
  refine ⟨hbusy.trans hidle, ?_⟩
  rw [block, hd0, hd1]
  exact hblock

/-- The host's next transaction, if it is a write, is neither to DATA nor a start. -/
def State.KeepsResult (s : State) : Prop :=
  ∀ T, s.nextTxn = some T → txnWrite T = true → txnOff T ≠ 0x10 ∧ txnOff T ≠ 0x18 ∧
    ¬ (txnOff T = 0 ∧ ((txnData T).extractLsb' 0 2 = 1 ∨ (txnData T).extractLsb' 0 2 = 2))

/-- A step with no reset, DATA write or start keeps the result where it stands. -/
theorem step_keeps_result {s t : State} {b : Word × Word} (hr : s.rst = false) (hrt : t.rst = false)
    (hk : s.KeepsResult) (h : step s = .next t) (hs : s.eng.IdleWith b) : t.eng.IdleWith b := by
  rcases systemStep_cases hr h with ⟨hrst, _⟩ | ⟨_, _, he⟩ | ⟨_, _, he | ⟨_, T, hT, hw, he⟩⟩
  · rw [hrst] at hrt
    cases hrt
  · rwa [he, Engine.turn_of_idle hs.1]
  · rwa [he]
  · obtain ⟨h0, h1, hstart⟩ := hk T hT hw
    rw [he]
    exact hs.regWrite h0 h1 hstart

/-- What holds at the start of a run and is kept by each of its steps holds at its end. -/
theorem runSteps_induction {P : State → Prop} {n : Nat} {s u : State} (h : runSteps n s = .next u) (hs : P s)
    (hstep : ∀ m v w, m < n → runSteps m s = .next v → runSteps (m + 1) s = .next w → step v = .next w →
      P v → P w) : P u := by
  induction n generalizing s with
  | zero => cases h; exact hs
  | succ n ih =>
    rw [runSteps_succ] at h
    cases ht : step s with
    | fault r => exact nomatch r
    | refused r => rw [ht] at h; cases h
    | next t =>
      have shift : ∀ m, runSteps (m + 1) s = runSteps m t := fun m => by rw [runSteps_succ, ht]
      rw [ht] at h
      refine ih h (hstep 0 s t (Nat.succ_pos n) rfl (shift 0) ht hs) fun m v w hm hv hw => ?_
      exact hstep (m + 1) v w (Nat.succ_lt_succ hm) ((shift m).trans hv) ((shift (m + 1)).trans hw)

/-- A run with no reset, DATA write or start keeps the result where it stands. -/
theorem runSteps_keep_result {n : Nat} {s u : State} {b : Word × Word} (h : runSteps n s = .next u)
    (hquiet : ∀ m v, m ≤ n → runSteps m s = .next v → v.rst = false ∧ (m < n → v.KeepsResult))
    (hs : s.eng.IdleWith b) : u.eng.IdleWith b := by
  refine runSteps_induction (P := fun v => v.eng.IdleWith b) h hs fun m v w hm hv hw hstep hres => ?_
  obtain ⟨hrv, hkeep⟩ := hquiet m v hm.le hv
  obtain ⟨hrw, _⟩ := hquiet (m + 1) w hm hw
  exact step_keeps_result hrv hrw (hkeep hm) hstep hres

/-- An idle engine answers DATA reads with its block (R106). -/
theorem exec_regRead_data {u : State} {b : Word × Word} (h : u.eng.IdleWith b) (wdata : Word) :
    exec (.regRead 0x10 wdata) u = .next { u with rdata := some b.1 } ∧
      exec (.regRead 0x18 wdata) u = .next { u with rdata := some b.2 } := by
  obtain ⟨hidle, rfl⟩ := h
  have h0 : u.eng.regRead 0x10 = u.eng.data0 :=
    (u.eng.regRead_offset .data0).trans (Engine.readData_of_idle _ hidle)
  have h1 : u.eng.regRead 0x18 = u.eng.data1 :=
    (u.eng.regRead_offset .data1).trans (Engine.readData_of_idle _ hidle)
  exact ⟨congrArg (fun r => Host.Outcome.next (u.answer r)) h0,
    congrArg (fun r => Host.Outcome.next (u.answer r)) h1⟩

/-- Settles O48: BUSY falls with the completion, and the run's steps keep what it wrote. -/
theorem busyFallsWithTheResult : Obligations.BusyFallsWithTheResult := by
  intro s t wdata hr h hbusy hidle hrt
  obtain ⟨hiter, he⟩ := step_busy_falls hr h hbusy hidle hrt
  have hresult : t.eng.IdleWith (t.eng.y, t.eng.z) := by
    rw [he]
    exact ⟨rfl, rfl⟩
  refine ⟨hiter, by rw [he]; rfl, by rw [he]; rfl, by rw [he]; rfl, by rw [he]; rfl, fun n u hrun hquiet => ?_⟩
  exact exec_regRead_data (runSteps_keep_result hrun hquiet hresult) wdata

end Sys2Proof.Machine

/-! Proofs of the family of spec/42_register_access.md: what reads and writes of the register window do (R103 to
R114), which instruction a step runs (R115), what an operation in flight leads to, and runs with a fair engine and
with a polling host (R116). -/

namespace Sys2Proof.Machine

/-! ### Register reads (R103 to R108) -/

/-- The STATUS word as a number (R60). -/
theorem Engine.statusWord_eq_ofNat (e : Engine) :
    e.statusWord = BitVec.ofNat 64 ((if e.mode = .decrypt then 8 else 0) + (if e.err then 4 else 0) +
      (if e.done then 2 else 0) + (if e.busy then 1 else 0)) := by
  rw [statusWord]
  generalize e.err = err, e.done = done, e.busy = busy
  cases e.mode <;> revert err done busy <;> decide

/-- What a read answers, offset by offset: three slots are readable, and every other offset, misaligned ones among
them, answers 0. -/
theorem Engine.regRead_eq (e : Engine) (off : BitVec 7) :
    e.regRead off = if off = 0x08 then e.statusWord else if off = 0x10 then e.readData e.data0
      else if off = 0x18 then e.readData e.data1 else 0 := by
  cases ha : offAligned off with
  | false =>
    have hne : ∀ off : BitVec 7, offAligned off = false → off ≠ 0x08 ∧ off ≠ 0x10 ∧ off ≠ 0x18 := by decide
    obtain ⟨h1, h2, h3⟩ := hne off ha
    rw [regRead_misaligned e ha, if_neg h1, if_neg h2, if_neg h3]
  | true =>
    obtain ⟨t, rfl⟩ : ∃ t : Slot, t.offset = off := ⟨offSlot off, offset_offSlot ha⟩
    rw [regRead_offset]
    cases t with
    | reserved n =>
      have hne : ∀ n : BitVec 3, (Slot.reserved n).offset ≠ 0x08 ∧ (Slot.reserved n).offset ≠ 0x10 ∧
          (Slot.reserved n).offset ≠ 0x18 := by decide
      obtain ⟨h1, h2, h3⟩ := hne n
      rw [if_neg h1, if_neg h2, if_neg h3]
      rfl
    | _ => rfl

/-- Settles O21: a read puts the engine's answer for its offset on the response lines. -/
theorem regReadAnswersTheSlot : Obligations.RegReadAnswersTheSlot := by
  intro off wdata s
  refine ⟨?_, ?_⟩
  · have hdecode := decode_of_read (txnWrite_txnWord false off wdata)
    rwa [txnOff_txnWord, txnData_txnWord] at hdecode
  · refine (execRegRead_eq off wdata s).trans ?_
    rw [Engine.regRead_eq, Engine.statusWord_eq_ofNat]
    rfl

/-! ### Register writes (R109 to R114) -/

/-- REG_WRITE changes the engine as `Engine.regWrite` says, and nothing around it. -/
theorem exec_regWrite_of_eq {off : BitVec 7} {v : Word} {s : State} {e : Engine}
    (h : Engine.regWrite off v s.eng = e) : exec (.regWrite off v) s = .next { s with eng := e } := by
  rw [← h]
  rfl

/-- Settles O25: while idle each slot's write stores its word, and while busy every write sets ERR. -/
theorem dataAndKeyWrites : Obligations.DataAndKeyWrites := by
  refine fun v s => ⟨fun hidle => ?_, fun hbusy off _ => exec_regWrite_of_eq (Engine.regWrite_of_busy off v hbusy)⟩
  have stored : ∀ {off : BitVec 7} {f : Engine → Engine}, Engine.regWrite off v s.eng = Engine.whenIdle f s.eng →
      exec (.regWrite off v) s = .next { s with eng := f s.eng } := fun h =>
    exec_regWrite_of_eq (h.trans (Engine.whenIdle_of_idle _ hidle))
  exact ⟨stored (Engine.regWrite_data0 v _), stored (Engine.regWrite_data1 v _), stored (Engine.regWrite_key0 v _),
    stored (Engine.regWrite_key1 v _), stored (Engine.regWrite_key2 v _), stored (Engine.regWrite_key3 v _)⟩

/-- The offsets at which no write is accepted are none of CTRL, DATA and KEY (R37). -/
theorem not_writable_of_refused {off : BitVec 7} (h : off = 0x08 ∨ 0x40 ≤ off.toNat ∨ off.toNat % 8 ≠ 0) :
    off ≠ 0 ∧ off ∉ [0x10, 0x18, 0x20, 0x28, 0x30, 0x38] := by
  revert off
  decide

/-- Settles O26: of all a write can do, only `set_err()` is left at these offsets. -/
theorem statusReservedAndMisalignedWrites : Obligations.StatusReservedAndMisalignedWrites := by
  intro off v s h
  obtain ⟨hctrl, hslot⟩ := not_writable_of_refused h
  refine exec_regWrite_of_eq ?_
  rcases Engine.regWrite_cases off v s.eng with ⟨h0, _⟩ | ⟨_, hc⟩ | ⟨_, _, he⟩
  · exact absurd h0 hctrl
  · refine absurd ?_ hslot
    rcases hc with ⟨rfl, _⟩ | ⟨rfl, _⟩ | ⟨rfl, _⟩ | ⟨rfl, _⟩ | ⟨rfl, _⟩ | ⟨rfl, _⟩ <;> decide
  · exact he

/-! ### The instruction a step runs (R115, R117) -/

/-- Settles O35: the host's turn finds no operation, and the engine's finds BUSY = 0. -/
theorem finishedRunStaysAsItIs : Obligations.FinishedRunStaysAsItIs := by
  intro s hr hf hturn
  obtain ⟨hend, hidle⟩ : s.program.length ≤ s.hostPc ∧ s.eng.busy = false := by simpa [State.finished] using hf
  rw [step_eq]
  rcases hturn with ht | ht
  · exact systemStep_of_ended hr ht (List.getElem?_eq_none hend)
  · rw [systemStep_of_engine hr ht, Engine.turn_of_idle hidle]
    rfl

/-- Settles O53: the step's rule for a transaction, with what the instruction does put back as `exec`. -/
theorem stepRunsTheDecodedInstruction : Obligations.StepRunsTheDecodedInstruction := by
  rintro s t T _ dst hr ht hp rfl h
  rw [exec_eq] at h
  cases h
  exact systemStep_of_issue hr ht hp

/-- The placed transaction is the host's next operation. -/
theorem State.placeTxn_next (T : TxnWord) (s : State) :
    (s.placeTxn T).program[(s.placeTxn T).hostPc]? = some (.issue T none) := by
  have hlen : (s.program.take (min s.hostPc s.program.length)).length = min s.hostPc s.program.length := by simp
  simp only [State.placeTxn]
  rw [List.getElem?_append_right hlen.le, hlen, Nat.sub_self, List.getElem?_cons_zero]

/-- Settles O54: the placed word is the next transaction (O53), and it wants no response. -/
theorem fetchWordRunsNext : Obligations.FetchWordRunsNext := by
  intro s t nbits w i hi h
  have hle : nbits ≤ 72 := by
    by_contra hgt
    simp [decodeTableWord, hgt] at hi
  rw [decodeTableWord_of_le w hle, Option.some.injEq] at hi
  have htaken : (s.withFetchWord nbits w).takeTurn = { s.withFetchWord nbits w with schedule := s.schedule } :=
    State.takeTurn_of_listed rfl
  have hstep := stepRunsTheDecodedInstruction (s.withFetchWord nbits w) t (tableWord nbits w) i none rfl rfl
    (State.placeTxn_next _ s) hi (by rw [htaken]; exact h)
  refine ⟨?_, rfl, rfl⟩
  rw [exec_eq] at h
  cases h
  exact hstep

/-! ### An operation in flight (R97, R98, R112, R113) -/

/-- Settles O44: with no reset a busy engine makes its own step, or the host's write is refused. -/
theorem busyLocksTheOperands : Obligations.BusyLocksTheOperands := by
  intro s t hr hbusy h hrt
  rcases systemStep_cases hr h with ⟨hrst, _⟩ | ⟨_, _, he⟩ | ⟨_, _, he | ⟨_, T, _, _, he⟩⟩
  · rw [hrst] at hrt
    cases hrt
  · rw [he, Engine.turn_of_busy hbusy]
    obtain ⟨hkey, hmode, herr, _⟩ := s.eng.engineStep_frame
    refine ⟨hkey, hmode, fun hb => ?_, fun hset => herr.trans hset⟩
    by_cases hlast : s.eng.iter + 1 = 64
    · rw [Engine.engineStep_of_last hlast, Engine.complete_busy] at hb
      cases hb
    · rw [Engine.engineStep_of_more hlast]
      rfl
  · rw [he]
    exact ⟨rfl, rfl, fun _ => rfl, id⟩
  · rw [he, Engine.regWrite_of_busy _ _ hbusy]
    exact ⟨rfl, rfl, fun _ => rfl, fun _ => rfl⟩

/-- The engine is in an operation whose result is `r`: what it has computed agrees with its block, key and MODE. -/
structure Engine.Computes (r : Word × Word) (e : Engine) : Prop where
  sound : e.Sound
  busy : e.busy = true
  result : transform e.mode e.key e.block = r

/-- The engine has completed an operation with the result `r` (R98). -/
structure Engine.Completed (r : Word × Word) (e : Engine) : Prop where
  idle : e.busy = false
  done : e.done = true
  block : e.block = r

namespace Engine.Computes
variable {r : Word × Word} {e : Engine} (h : e.Computes r)
include h

theorem done : e.done = false :=
  ((sound_iff_of_busy h.busy).mp h.sound).1

theorem iter_le : e.iter.toNat ≤ 63 :=
  ((sound_iff_of_busy h.busy).mp h.sound).2.1

theorem setErr : e.setErr.Computes r :=
  ⟨(sound_iff_of_busy (e := e.setErr) h.busy).mpr ((sound_iff_of_busy h.busy).mp h.sound), h.busy, h.result⟩

/-- The 64th iteration completes the operation with its result. -/
theorem turn_of_last (hlast : e.iter.toNat = 63) : e.turn.Completed r := by
  obtain ⟨_, _, hw⟩ := (sound_iff_of_busy h.busy).mp h.sound
  have hworking : e.iterate.working = iterMany e.mode e.key 64 ⟨e.block.1, e.block.2, sumInit e.mode⟩ := by
    rw [working_iterate, hw, hlast]
    rfl
  have hi : e.iter + 1 = 64 := by bv_omega
  rw [turn_of_busy h.busy, engineStep_of_last hi]
  refine ⟨rfl, rfl, ?_⟩
  calc e.iterate.complete.block = (e.iterate.working.y, e.iterate.working.z) := rfl
    _ = transform e.mode e.key e.block := by rw [hworking, transform_eq]
    _ = r := h.result

/-- An earlier iteration leaves the operation in flight, one iteration further. -/
theorem turn_of_more (hmore : e.iter.toNat < 63) :
    e.turn.Computes r ∧ e.turn.iter.toNat = e.iter.toNat + 1 := by
  have hi : e.iter + 1 ≠ 64 := by bv_omega
  have hsound := h.sound.turn
  rw [turn_of_busy h.busy, engineStep_of_more hi] at hsound ⊢
  refine ⟨⟨hsound, h.busy, h.result⟩, ?_⟩
  rw [iterate_iter]
  bv_omega

end Engine.Computes

/-- The engine's listed turns that an operation in flight has left: it stays busy before the last of them, and
completes in it. -/
theorem runSteps_of_computes {r : Word × Word} {s : State} {ts : List Turn} {n : Nat} (hr : s.rst = false)
    (hc : s.eng.Computes r) (hn : s.eng.iter.toNat + n = 64) (hs : s.schedule = List.replicate n .engine ++ ts) :
    (∀ m, m < n → ∃ u, runSteps m s = .next u ∧ u.eng.busy = true) ∧
      ∃ t, runSteps n s = .next t ∧ t.eng.Completed r := by
  induction n generalizing s with
  | zero => exact absurd hc.iter_le (by omega)
  | succ n ih =>
    have hstep := step_of_listed_engine hr hs
    have shift : ∀ m, runSteps (m + 1) s =
        runSteps m { s with schedule := List.replicate n .engine ++ ts, eng := s.eng.turn } := fun m => by
      rw [runSteps_succ, hstep]
      rfl
    rw [shift n]
    cases n with
    | zero =>
      refine ⟨fun m hm => ⟨s, ?_, hc.busy⟩, _, rfl, hc.turn_of_last (by omega)⟩
      rw [show m = 0 by omega, runSteps_zero]
    | succ n =>
      obtain ⟨hc', hiter⟩ := hc.turn_of_more (by omega)
      obtain ⟨hbusy, hdone⟩ :=
        ih (s := { s with schedule := _, eng := s.eng.turn }) hr hc' (by dsimp only; omega) rfl
      refine ⟨fun m hm => ?_, hdone⟩
      cases m with
      | zero => exact ⟨s, rfl, hc.busy⟩
      | succ m =>
        rw [shift m]
        exact hbusy m (by omega)

/-- A busy engine that meets the invariant is computing the transform of its block. -/
theorem State.Inv.computes {s : State} (h : s.Inv) (hb : s.eng.busy = true) :
    s.eng.Computes (transform s.eng.mode s.eng.key s.eng.block) :=
  ⟨⟨h.consistent, h.onTrack⟩, hb, rfl⟩

/-- Settles O40: the listed turns are the engine steps the operation has left. -/
theorem operationInFlightCompletes : Obligations.OperationInFlightCompletes := by
  intro s ts hinv hr hb hs
  have hc := hinv.computes hb
  have hle := hc.iter_le
  obtain ⟨hbusy, t, ht, hidle, hdone, hblock⟩ := runSteps_of_computes hr hc (by omega) hs
  exact ⟨hbusy, t, ht, hidle, hdone, hblock⟩

/-! ### Runs with given turns (R115, R116) -/

/-- The state with this one turn listed. -/
def State.withTurn (τ : Turn) (s : State) : State := { s with schedule := [τ] }

/-- All a step can do to an operation in flight: a reset ends it, its last iteration completes it, and any other
step leaves it in flight, the engine's own one iteration further. -/
theorem step_of_computes {r : Word × Word} {s t : State} (hr : s.rst = false) (hc : s.eng.Computes r)
    (h : step s = .next t) :
    t.rst = true ∨ t.eng.Completed r ∨
      (t.eng.Computes r ∧ s.eng.iter.toNat ≤ t.eng.iter.toNat ∧
        (s.turn = .engine → s.eng.iter.toNat < t.eng.iter.toNat)) := by
  rcases systemStep_cases hr h with ⟨hrst, _⟩ | ⟨_, _, he⟩ | ⟨_, ht, he | ⟨_, T, _, _, he⟩⟩
  · exact .inl hrst
  · rw [he]
    have hle := hc.iter_le
    by_cases hlast : s.eng.iter.toNat = 63
    · exact .inr (.inl (hc.turn_of_last hlast))
    · obtain ⟨hc', hiter⟩ := hc.turn_of_more (by omega)
      exact .inr (.inr ⟨hc', by omega, fun _ => by omega⟩)
  · rw [he]
    exact .inr (.inr ⟨hc, le_rfl, fun hturn => absurd hturn ht⟩)
  · rw [he, Engine.regWrite_of_busy _ _ hc.busy]
    exact .inr (.inr ⟨hc.setErr, le_rfl, fun hturn => absurd hturn ht⟩)

/-- A turn that is not the host's leaves the host where it is: it is a reset, the engine's turn, or the release of a
pin that is released. -/
theorem step_of_other_turn {s : State} (hr : s.rst = false) (ht : s.turn ≠ .host) :
    ∃ u, step s = .next u ∧ u.program = s.program ∧ u.hostPc = s.hostPc ∧ u.vars = s.vars ∧
      (u.rst = true ∨ u.rst = false ∧
        (s.turn = .engine ∧ u.eng = s.eng.turn ∨ s.turn = .rstRelease ∧ u.eng = s.eng)) := by
  cases hturn : s.turn with
  | host => exact absurd hturn ht
  | engine => exact ⟨_, systemStep_of_engine hr hturn, rfl, rfl, rfl, .inr ⟨hr, .inl ⟨rfl, rfl⟩⟩⟩
  | rstAssert => exact ⟨_, systemStep_of_assert hr hturn, rfl, rfl, rfl, .inl rfl⟩
  | rstRelease => exact ⟨_, systemStep_of_release hr hturn, rfl, rfl, rfl, .inr ⟨hr, .inr ⟨rfl, rfl⟩⟩⟩

/-- A run that can stay away from `Q` only within `P`, whose number no step raises and a helpful turn lowers, comes to
`Q` where helpful turns keep coming. -/
theorem runTurns_leads_to {turns : Nat → Turn} {s : State} {P : Nat → State → Prop}
    {Q : Host.Outcome State Fault Refusal → Prop} {Helpful : State → Turn → Prop}
    (hstep : ∀ k t τ, P k t → Q (step (t.withTurn τ)) ∨
      ∃ u j, step (t.withTurn τ) = .next u ∧ P j u ∧ j ≤ k ∧ (Helpful t τ → j < k))
    (hfair : ∀ n, (∀ m, n ≤ m → ∃ t k, runTurns turns m s = .next t ∧ P k t) →
      ∃ m, n ≤ m ∧ ∀ t, runTurns turns m s = .next t → Helpful t (turns m))
    {n k : Nat} {t : State} (hn : runTurns turns n s = .next t) (ht : P k t) : ∃ m, Q (runTurns turns m s) := by
  induction k using Nat.strong_induction_on generalizing n t with
  | _ k ih =>
    by_contra hnever
    have next : ∀ {m j u}, runTurns turns m s = .next u → P j u →
        ∃ v i, runTurns turns (m + 1) s = .next v ∧ P i v ∧ i ≤ j ∧ (Helpful u (turns m) → i < j) := by
      intro m j u hm hu
      rcases hstep j u (turns m) hu with hQ | ⟨v, i, hv, hrest⟩
      · refine absurd ⟨m + 1, ?_⟩ hnever
        rw [runTurns_succ, hm]
        exact hQ
      · exact ⟨v, i, runTurns_next hm hv, hrest⟩
    have stays : ∀ m, n ≤ m → ∃ u j, runTurns turns m s = .next u ∧ P j u ∧ j ≤ k := by
      intro m hm
      induction m, hm using Nat.le_induction with
      | base => exact ⟨t, k, hn, ht, le_rfl⟩
      | succ m _ ihm =>
        obtain ⟨u, j, hu, hP, hj⟩ := ihm
        obtain ⟨v, i, hv, hP', hi, _⟩ := next hu hP
        exact ⟨v, i, hv, hP', hi.trans hj⟩
    obtain ⟨m, hm, hhelp⟩ := hfair n fun m hm => by
      obtain ⟨u, j, hu, hP, _⟩ := stays m hm
      exact ⟨u, j, hu, hP⟩
    obtain ⟨u, j, hu, hP, hj⟩ := stays m hm
    obtain ⟨v, i, hv, hP', _, hlt⟩ := next hu hP
    exact hnever (ih i ((hlt (hhelp u hu)).trans_le hj) hv hP')

/-! ### Completion in a fair run (R116) -/

/-- An operation in flight with `k` engine steps left, `L` holding beside it. -/
structure State.InFlight (r : Word × Word) (L : State → Prop) (k : Nat) (t : State) : Prop where
  released : t.rst = false
  computes : t.eng.Computes r
  left : t.eng.iter.toNat + k = 64
  beside : L t

/-- In a fair run an operation in flight completes, with what each step keeps while it is in flight, unless a step
leads to `Q` before. -/
theorem WeaklyFair.completes {turns : Nat → Turn} {s : State} (hfair : WeaklyFair turns s) {r : Word × Word}
    {L : State → Prop} {Q : Host.Outcome State Fault Refusal → Prop}
    (hL : ∀ t τ, t.rst = false → t.eng.Computes r → L t → Q (step (t.withTurn τ)) ∨
      ∃ u, step (t.withTurn τ) = .next u ∧ u.rst = false ∧ L u)
    (hr : s.rst = false) (hc : s.eng.Computes r) (hl : L s) :
    ∃ n, Q (runTurns turns n s) ∨
      ∃ t, runTurns turns n s = .next t ∧ t.rst = false ∧ t.eng.Completed r ∧ L t := by
  have hle := hc.iter_le
  refine runTurns_leads_to (P := State.InFlight r L) (Helpful := fun _ τ => τ = .engine)
    (Q := fun o => Q o ∨ ∃ t, o = .next t ∧ t.rst = false ∧ t.eng.Completed r ∧ L t) ?_ ?_
    (runTurns_zero turns s) (k := 64 - s.eng.iter.toNat) ⟨hr, hc, by omega, hl⟩
  · rintro k t τ ⟨hrt, hct, hk, hlt⟩
    rcases hL t τ hrt hct hlt with hQ | ⟨u, hu, hru, hlu⟩
    · exact .inl (.inl hQ)
    · rcases step_of_computes (s := t.withTurn τ) hrt hct hu with hrst | hdone | ⟨hcu, hmono, hmore⟩
      · rw [hru] at hrst
        cases hrst
      · exact .inl (.inr ⟨u, hu, hru, hdone, hlu⟩)
      · have hleu := hcu.iter_le
        change t.eng.iter.toNat ≤ _ at hmono
        refine .inr ⟨u, 64 - u.eng.iter.toNat, hu, ⟨hru, hcu, by omega, hlu⟩, by omega, fun hτ => ?_⟩
        have hgrow : t.eng.iter.toNat < u.eng.iter.toNat := hmore hτ
        omega
  · intro n hall
    obtain ⟨m, hm, hturn⟩ := hfair n fun m hm => by
      obtain ⟨t, k, ht, hP⟩ := hall m hm
      exact ⟨t, ht, hP.computes.busy⟩
    exact ⟨m, hm, fun _ _ => hturn⟩

/-- The outcome is a state in which the engine has just been reset (R132). -/
def EndsInReset (o : Host.Outcome State Fault Refusal) : Prop :=
  ∃ t, o = .next t ∧ t.rst = true ∧ t.eng = Engine.reset

theorem endsInReset_of_step {s t : State} (h : step s = .next t) (ht : t.rst = true) : EndsInReset (step s) :=
  ⟨t, h, ht, step_holds_reset h ht⟩

/-- The outcome is the refusal of a host access, or a reset. -/
def StopsOrResets (o : Host.Outcome State Fault Refusal) : Prop :=
  (∃ ρ, o = .refused ρ) ∨ EndsInReset o

/-- Every step goes on with the pin released, or stops or resets. -/
theorem step_stops_or_goes_on (s : State) : StopsOrResets (step s) ∨ ∃ t, step s = .next t ∧ t.rst = false := by
  rcases step_next_or_refused s with ⟨t, ht⟩ | ⟨_, _, _, _, _, ρ, _, _, _, hρ⟩
  · cases hrst : t.rst with
    | true => exact .inl (.inr (endsInReset_of_step ht hrst))
    | false => exact .inr ⟨t, ht, hrst⟩
  · exact .inl (.inl ⟨ρ, hρ⟩)

/-- R116's own claim: in a fair run an operation in flight completes with its result, unless it is reset or the host
steps outside this block's transactions. -/
theorem WeaklyFair.completes_or_stops {turns : Nat → Turn} {s : State} (hfair : WeaklyFair turns s)
    {r : Word × Word} (hr : s.rst = false) (hc : s.eng.Computes r) :
    ∃ n, (∃ ρ, runTurns turns n s = .refused ρ) ∨
      ∃ t, runTurns turns n s = .next t ∧ t.eng.busy = false ∧
        (t.rst = true ∨ t.eng.done = true ∧ t.eng.block = r) := by
  obtain ⟨n, (hrefused | ⟨t, ht, hrst, he⟩) | ⟨t, ht, _, hdone, _⟩⟩ := hfair.completes (L := fun _ => True)
    (fun t τ _ _ _ => (step_stops_or_goes_on (t.withTurn τ)).imp_right
      fun ⟨u, hu, hru⟩ => ⟨u, hu, hru, trivial⟩)
    hr hc trivial
  · exact ⟨n, .inl hrefused⟩
  · exact ⟨n, .inr ⟨t, ht, by rw [he]; rfl, .inl hrst⟩⟩
  · exact ⟨n, .inr ⟨t, ht, hdone.idle, .inr ⟨hdone.done, hdone.block⟩⟩⟩

/-! ### Waiting loops of the host (R49, R65, R116) -/

/-- The step is the host's alone: it leads to `u`, with the pin and the engine as they are. -/
structure State.HostStep (s u : State) : Prop where
  step_eq : step s = .next u
  rst : u.rst = s.rst
  eng : u.eng = s.eng

/-- A host that waits in a loop until the engine is `ready`. `place k` says that the host is in the loop and needs `k`
of its own steps to leave it once the engine is ready; it has not left the loop, or found the engine ready, where `k`
is at least `low`. -/
structure WaitLoop (ready : Engine → Bool) (low : Nat) (place : Nat → State → Prop) : Prop where
  low_pos : 0 < low
  not_ready_of_busy : ∀ e : Engine, e.busy = true → e.done = false → ready e = false
  ready_of_done : ∀ e : Engine, e.busy = false → e.done = true → ready e = true
  congr : ∀ {k s t}, place k s → t.program = s.program → t.hostPc = s.hostPc → t.vars = s.vars → place k t
  not_ended : ∀ {k s}, place (k + 1) s → s.hostPc < s.program.length
  go : ∀ {k s}, place (k + 1) s → s.rst = false → s.turn = .host → ready s.eng = true →
    ∃ t, s.HostStep t ∧ place k t
  stay : ∀ {k s}, place k s → low ≤ k → s.rst = false → s.turn = .host → ready s.eng = false →
    ∃ t j, s.HostStep t ∧ place j t ∧ low ≤ j

/-- The host is in the loop on its way out, `k` of its steps from the exit, beside the engine `e`. -/
structure State.Leaving (place : Nat → State → Prop) (e : Engine) (k : Nat) (t : State) : Prop where
  released : t.rst = false
  eng : t.eng = e
  pos : 0 < k
  place : place k t

namespace WaitLoop
variable {ready : Engine → Bool} {low : Nat} {place : Nat → State → Prop} (W : WaitLoop ready low place)
include W

/-- While the engine is not ready no step takes the host out of the loop, unless it is a reset. -/
theorem step_of_not_ready {k : Nat} {s : State} (hp : place k s) (hk : low ≤ k) (hr : s.rst = false)
    (hready : ready s.eng = false) :
    ∃ t, step s = .next t ∧ (t.rst = true ∨ t.rst = false ∧ ∃ j, place j t ∧ low ≤ j) := by
  by_cases ht : s.turn = .host
  · obtain ⟨t, j, hs, hpt, hj⟩ := W.stay hp hk hr ht hready
    exact ⟨t, hs.step_eq, .inr ⟨hs.rst.trans hr, j, hpt, hj⟩⟩
  · obtain ⟨t, hs, hprog, hpc, hvars, hrst | ⟨hrst, _⟩⟩ := step_of_other_turn hr ht
    · exact ⟨t, hs, .inl hrst⟩
    · exact ⟨t, hs, .inr ⟨hrst, k, W.congr hp hprog hpc hvars, hk⟩⟩

/-- Once the engine is idle and ready the host's steps take it out of the loop, and no other turn takes it back or
moves the engine, unless it is a reset. -/
theorem step_of_ready {k : Nat} {s : State} (hp : place (k + 1) s) (hr : s.rst = false) (hidle : s.eng.busy = false)
    (hready : ready s.eng = true) :
    ∃ t, step s = .next t ∧ (t.rst = true ∨ t.rst = false ∧ t.eng = s.eng ∧
      (place k t ∨ (s.enabled s.turn = false ∧ place (k + 1) t))) := by
  by_cases ht : s.turn = .host
  · obtain ⟨t, hs, hpt⟩ := W.go hp hr ht hready
    exact ⟨t, hs.step_eq, .inr ⟨hs.rst.trans hr, hs.eng, .inl hpt⟩⟩
  · obtain ⟨t, hs, hprog, hpc, hvars, hrst | ⟨hrst, he⟩⟩ := step_of_other_turn hr ht
    · exact ⟨t, hs, .inl hrst⟩
    · have hpt := W.congr hp hprog hpc hvars
      rcases he with ⟨hturn, he⟩ | ⟨hturn, he⟩
      · rw [Engine.turn_of_idle hidle] at he
        exact ⟨t, hs, .inr ⟨hrst, he, .inr ⟨by rw [hturn, State.enabled_engine, hidle], hpt⟩⟩⟩
      · exact ⟨t, hs, .inr ⟨hrst, he, .inr ⟨by rw [hturn, State.enabled_rstRelease, hr], hpt⟩⟩⟩

/-- With the engine idle and ready the host leaves the loop, where the run does not stand still. -/
theorem leaves {turns : Nat → Turn} {s : State} (hkeep : KeepsStepping turns s) {n k : Nat} {t : State}
    (hn : runTurns turns n s = .next t) (hp : place k t) (hk : 0 < k) (hr : t.rst = false)
    (hidle : t.eng.busy = false) (hready : ready t.eng = true) :
    ∃ m u, runTurns turns m s = .next u ∧ (u.rst = true ∨ place 0 u ∧ u.eng = t.eng) := by
  refine runTurns_leads_to (P := State.Leaving place t.eng) (Helpful := fun v τ => v.enabled τ = true)
    (Q := fun o => ∃ u, o = .next u ∧ (u.rst = true ∨ place 0 u ∧ u.eng = t.eng)) ?_ ?_ hn ⟨hr, rfl, hk, hp⟩
  · rintro k v τ ⟨hrv, hev, hkv, hpv⟩
    obtain ⟨k, rfl⟩ := Nat.exists_eq_succ_of_ne_zero hkv.ne'
    obtain ⟨u, hu, hrst | ⟨hru, heu, hpu | ⟨hstill, hpu⟩⟩⟩ := W.step_of_ready (s := v.withTurn τ)
      (W.congr hpv rfl rfl rfl) hrv (hev ▸ hidle) (hev ▸ hready)
    · exact .inl ⟨u, hu, .inl hrst⟩
    · have heu : u.eng = t.eng := heu.trans hev
      cases k with
      | zero => exact .inl ⟨u, hu, .inr ⟨hpu, heu⟩⟩
      | succ k => exact .inr ⟨u, k + 1, hu, ⟨hru, heu, Nat.succ_pos k, hpu⟩, by omega, fun _ => by omega⟩
    · refine .inr ⟨u, k + 1, hu, ⟨hru, heu.trans hev, hkv, hpu⟩, le_rfl, fun hen => ?_⟩
      exact absurd (hstill.symm.trans hen) Bool.false_ne_true
  · intro m hall
    obtain ⟨v, k, hv, hP⟩ := hall m le_rfl
    obtain ⟨k, rfl⟩ := Nat.exists_eq_succ_of_ne_zero hP.pos.ne'
    have hrunning : v.finished = false := by
      rw [State.finished_eq, State.enabled_host, decide_eq_true (W.not_ended hP.place)]
      rfl
    obtain ⟨i, w, hi, hw, hen⟩ := hkeep m v hv hrunning
    refine ⟨i, hi, fun u hu => ?_⟩
    rw [hw] at hu
    cases hu
    exact hen

/-- A waiting host leaves its loop in a fair run that does not stand still, with the engine ready, and with the result
of the operation that was in flight, unless it is reset. -/
theorem ends {turns : Nat → Turn} {s : State} (hfair : WeaklyFair turns s) (hkeep : KeepsStepping turns s)
    (hinv : s.Inv) (hr : s.rst = false) {k : Nat} (hp : place k s) (hk : low ≤ k)
    (hstart : s.eng.busy = true ∨ s.eng.busy = false ∧ ready s.eng = true) :
    ∃ n t, runTurns turns n s = .next t ∧ (t.rst = true ∨
      place 0 t ∧ t.eng.busy = false ∧ ready t.eng = true ∧
        (s.eng.busy = true → t.eng.Completed (transform s.eng.mode s.eng.key s.eng.block))) := by
  rcases hstart with hb | ⟨hidle, hready⟩
  · obtain ⟨n, ⟨t, ht, hrst, _⟩ | ⟨t, ht, hrt, hdone, j, hpt, hj⟩⟩ := hfair.completes
      (L := fun t => ∃ j, place j t ∧ low ≤ j) (Q := EndsInReset)
      (fun t τ hrt hct ⟨j, hpt, hj⟩ => by
        obtain ⟨u, hu, hrst | hloop⟩ := W.step_of_not_ready (s := t.withTurn τ) (W.congr hpt rfl rfl rfl) hj hrt
          (W.not_ready_of_busy _ hct.busy hct.done)
        · exact .inl (endsInReset_of_step hu hrst)
        · exact .inr ⟨u, hu, hloop⟩)
      hr (hinv.computes hb) ⟨k, hp, hk⟩
    · exact ⟨n, t, ht, .inl hrst⟩
    · have hready := W.ready_of_done _ hdone.idle hdone.done
      obtain ⟨m, u, hu, hrst | ⟨hpu, heu⟩⟩ :=
        W.leaves hkeep ht hpt (W.low_pos.trans_le hj) hrt hdone.idle hready
      · exact ⟨m, u, hu, .inl hrst⟩
      · rw [← heu] at hdone hready
        exact ⟨m, u, hu, .inr ⟨hpu, hdone.idle, hready, fun _ => hdone⟩⟩
  · obtain ⟨m, u, hu, hrst | ⟨hpu, heu⟩⟩ :=
      W.leaves hkeep (runTurns_zero turns s) hp (W.low_pos.trans_le hk) hr hidle hready
    · exact ⟨m, u, hu, .inl hrst⟩
    · rw [← heu] at hidle hready
      refine ⟨m, u, hu, .inr ⟨hpu, hidle, hready, fun hb => ?_⟩⟩
      exact absurd (hidle.symm.trans (heu ▸ hb)) Bool.false_ne_true

end WaitLoop

/-! ### The host at `wait` (R65) -/

/-- The bit of host variable `h` that `wait` tests: BUSY as it was last read. -/
def State.busyRead (h : Nat) (s : State) : Bool := (getVar s.vars h).getLsbD 0

/-- `wait -> h` stands at position `pc` of the host program (R65), and the host variables are in canonical form. -/
structure State.HasWait (pc h : Nat) (s : State) : Prop where
  read : s.program[pc]? = some (opRd .status h)
  test : s.program[pc + 1]? = some (.ifGoto h 0 true pc)
  vars : varsWf s.vars = true

theorem State.hasWait_of_take {pc h : Nat} {s : State} (hp : (s.program.drop pc).take 2 = opWait pc h)
    (hv : varsWf s.vars = true) : s.HasWait pc h := by
  have get : ∀ i, i < 2 → s.program[pc + i]? = (opWait pc h)[i]? := by
    intro i hi
    rw [← hp, List.getElem?_take_of_lt hi, List.getElem?_drop]
  exact ⟨get 0 (by omega), get 1 (by omega), hv⟩

/-- What `HasWait` says is the host's alone. -/
theorem State.HasWait.congr {pc h : Nat} {s t : State} (hw : s.HasWait pc h) (hprog : t.program = s.program)
    (hv : t.vars = s.vars) : t.HasWait pc h :=
  ⟨hprog ▸ hw.read, hprog ▸ hw.test, hv ▸ hw.vars⟩

section
variable {pc h : Nat} {s : State} (hw : s.HasWait pc h) (hr : s.rst = false) (ht : s.turn = .host)
include hw hr ht

/-- The first operation of `wait` reads BUSY into the variable. -/
theorem step_of_waitRead (hpc : s.hostPc = pc) :
    ∃ t, s.HostStep t ∧ t.HasWait pc h ∧ t.hostPc = pc + 1 ∧ t.busyRead h = s.eng.busy := by
  have hdecode : decode (txnWord false 0x08 0) = .regRead 0x08 0 := by decide
  have hstep := stepRunsTheDecodedInstruction s _ _ _ (some h) hr ht (hpc ▸ hw.read) hdecode
    (exec_regRead_status 0 _)
  have hbit : (getVar (setVar s.vars h s.eng.statusWord) h).getLsbD 0 = s.eng.busy := by
    rw [getVar_setVar_same hw.vars, Engine.statusWord_getLsbD]
    rfl
  exact ⟨_, ⟨hstep, rfl, rfl⟩, ⟨hw.read, hw.test, varsWf_setVar h _ hw.vars⟩, congrArg (· + 1) hpc, hbit⟩

/-- The second goes back where it was 1. -/
theorem step_of_waitTest (hpc : s.hostPc = pc + 1) :
    ∃ t, s.HostStep t ∧ t.HasWait pc h ∧ t.hostPc = (if s.busyRead h = true then pc else pc + 2) ∧
      t.busyRead h = s.busyRead h := by
  have hstep := systemStep_of_branch hr ht (hpc ▸ hw.test)
  refine ⟨_, ⟨hstep, rfl, rfl⟩, ⟨hw.read, hw.test, hw.vars⟩, ?_, rfl⟩
  rw [hostBranch_hostPc, State.takeTurn_hostPc, hpc]
  rfl

end

/-- Where the host is in `wait`, by the host steps it needs from there to leave it while idle. -/
inductive State.WaitPlace (pc h : Nat) (s : State) : Nat → Prop
  | left : s.hostPc = pc + 2 → s.busyRead h = false → WaitPlace pc h s 0
  | readIdle : s.hostPc = pc + 1 → s.busyRead h = false → WaitPlace pc h s 1
  | start : s.hostPc = pc → WaitPlace pc h s 2
  | readBusy : s.hostPc = pc + 1 → s.busyRead h = true → WaitPlace pc h s 3

/-- `wait -> h` is a waiting loop for BUSY = 0. -/
theorem waitLoop_opWait (pc h : Nat) :
    WaitLoop (fun e => !e.busy) 2 (fun k s => s.HasWait pc h ∧ s.WaitPlace pc h k) where
  low_pos := by omega
  not_ready_of_busy := fun e hb _ => by rw [hb]; rfl
  ready_of_done := fun e hb _ => by rw [hb]; rfl
  congr := by
    rintro k s t ⟨hw, hplace⟩ hprog hpc hv
    have hbit : t.busyRead h = s.busyRead h := by rw [State.busyRead, hv, State.busyRead]
    refine ⟨hw.congr hprog hv, ?_⟩
    cases hplace with
    | left hp hb => exact .left (hpc.trans hp) (hbit.trans hb)
    | readIdle hp hb => exact .readIdle (hpc.trans hp) (hbit.trans hb)
    | start hp => exact .start (hpc.trans hp)
    | readBusy hp hb => exact .readBusy (hpc.trans hp) (hbit.trans hb)
  not_ended := by
    rintro k s ⟨hw, hplace⟩
    obtain ⟨hlen, _⟩ := List.getElem?_eq_some_iff.mp hw.test
    cases hplace <;> omega
  go := by
    rintro k s ⟨hw, hplace⟩ hr ht hready
    have hidle : s.eng.busy = false := by simpa using hready
    cases hplace with
    | readIdle hp hb =>
      obtain ⟨t, hs, hwt, hpc, hbit⟩ := step_of_waitTest hw hr ht hp
      exact ⟨t, hs, hwt, .left (hpc.trans (if_neg (by simp [hb]))) (hbit.trans hb)⟩
    | start hp =>
      obtain ⟨t, hs, hwt, hpc, hbit⟩ := step_of_waitRead hw hr ht hp
      exact ⟨t, hs, hwt, .readIdle hpc (hbit.trans hidle)⟩
    | readBusy hp hb =>
      obtain ⟨t, hs, hwt, hpc, _⟩ := step_of_waitTest hw hr ht hp
      exact ⟨t, hs, hwt, .start (hpc.trans (if_pos hb))⟩
  stay := by
    rintro k s ⟨hw, hplace⟩ hk hr ht hready
    have hbusy : s.eng.busy = true := by simpa using hready
    cases hplace with
    | left | readIdle => omega
    | start hp =>
      obtain ⟨t, hs, hwt, hpc, hbit⟩ := step_of_waitRead hw hr ht hp
      exact ⟨t, 3, hs, ⟨hwt, .readBusy hpc (hbit.trans hbusy)⟩, by omega⟩
    | readBusy hp hb =>
      obtain ⟨t, hs, hwt, hpc, _⟩ := step_of_waitTest hw hr ht hp
      exact ⟨t, 2, hs, ⟨hwt, .start (hpc.trans (if_pos hb))⟩, le_rfl⟩

/-- The wait for `irq` stands at position `pc`, and the host is at it or has just left it, by the host steps it needs
from there to leave it while `irq` is raised. -/
structure State.IrqWaitPlace (pc k : Nat) (s : State) : Prop where
  test : s.program[pc]? = some (.ifIrq false pc)
  pos : s.hostPc + k = pc + 1
  le : k ≤ 1

theorem State.irqWaitPlace_of_take {s : State} (hp : (s.program.drop s.hostPc).take 1 = opWaitIrq s.hostPc) :
    s.IrqWaitPlace s.hostPc 1 := by
  have hget := congrArg (·[0]?) hp
  rw [List.getElem?_take_of_lt Nat.zero_lt_one, List.getElem?_drop] at hget
  exact ⟨hget, rfl, le_rfl⟩

/-- The wait for `irq` is a waiting loop for DONE (R31, R49). -/
theorem waitLoop_opWaitIrq (pc : Nat) : WaitLoop Engine.irq 1 (State.IrqWaitPlace pc) where
  low_pos := by omega
  not_ready_of_busy := fun e _ hd => hd
  ready_of_done := fun e _ hd => hd
  congr := by
    rintro k s t ⟨htest, hpos, hle⟩ hprog hpc _
    exact ⟨hprog ▸ htest, hpc ▸ hpos, hle⟩
  not_ended := by
    rintro k s ⟨htest, hpos, hle⟩
    obtain ⟨hlen, _⟩ := List.getElem?_eq_some_iff.mp htest
    omega
  go := by
    rintro k s ⟨htest, hpos, hle⟩ hr ht hready
    have hpc : s.hostPc = pc := by omega
    refine ⟨_, ⟨systemStep_of_irqBranch hr ht (hpc ▸ htest), rfl, rfl⟩, htest, ?_, by omega⟩
    rw [hostIrqBranch_hostPc, State.takeTurn_eng, if_neg (by simp [hready]), State.takeTurn_hostPc]
    omega
  stay := by
    rintro k s ⟨htest, hpos, hle⟩ hk hr ht hready
    have hpc : s.hostPc = pc := by omega
    refine ⟨_, 1, ⟨systemStep_of_irqBranch hr ht (hpc ▸ htest), rfl, rfl⟩, ⟨htest, ?_, le_rfl⟩, le_rfl⟩
    rw [hostIrqBranch_hostPc, State.takeTurn_eng, if_pos hready, hpc]

/-- Settles O59: completion under weak fairness, and the two waiting loops in a run that does not stand still. -/
theorem fairRunsComplete : Obligations.FairRunsComplete := by
  intro turns s hinv hr hfair
  refine ⟨fun hb => hfair.completes_or_stops hr (hinv.computes hb), fun h hkeep hp => ?_, fun hkeep hp hstart => ?_⟩
  · have hstart : s.eng.busy = true ∨ s.eng.busy = false ∧ (!s.eng.busy) = true := by
      cases s.eng.busy <;> decide
    obtain ⟨n, t, ht, hrst | ⟨⟨_, hplace⟩, hidle, _, hresult⟩⟩ :=
      (waitLoop_opWait s.hostPc h).ends hfair hkeep hinv hr
        ⟨State.hasWait_of_take hp hinv.vars, .start rfl⟩ le_rfl hstart
    · exact ⟨n, t, ht, .inl hrst⟩
    · cases hplace with
      | left hpc hbit =>
        exact ⟨n, t, ht, .inr ⟨hpc, hbit, hidle, fun hb => ⟨(hresult hb).done, (hresult hb).block⟩⟩⟩
  · have hstart' : s.eng.busy = true ∨ s.eng.busy = false ∧ s.eng.irq = true :=
      hstart.imp_right fun hd => ⟨hinv.consistent.done_idle hd, hd⟩
    obtain ⟨n, t, ht, hrst | ⟨⟨_, hpc, _⟩, _, hdone, hresult⟩⟩ :=
      (waitLoop_opWaitIrq s.hostPc).ends hfair hkeep hinv hr (State.irqWaitPlace_of_take hp) le_rfl hstart'
    · exact ⟨n, t, ht, .inl hrst⟩
    · exact ⟨n, t, ht, .inr ⟨hpc, hdone, fun hb => (hresult hb).block⟩⟩

/-! ### A run in which only the host polls (R115, R116) -/

/-- After `n` turns of a host that polls a busy engine: nothing has happened to the engine, the host is at the read or
at the test, in turn, and has read BUSY = 1 once it has read at all. -/
structure State.Polling (h : Nat) (e : Engine) (n : Nat) (t : State) : Prop where
  released : t.rst = false
  eng : t.eng = e
  wait : t.HasWait 0 h
  pos : t.hostPc = n % 2
  bit : 0 < n → t.busyRead h = true

theorem State.Polling.step {h n : Nat} {e : Engine} {t : State} (hp : t.Polling h e n) (hb : e.busy = true)
    (ht : t.turn = .host) : ∃ u, Machine.step t = .next u ∧ u.Polling h e (n + 1) := by
  obtain ⟨hr, rfl, hw, hpos, hbit⟩ := hp
  rcases Nat.mod_two_eq_zero_or_one n with hn | hn
  · obtain ⟨u, hs, hwu, hpc, hread⟩ := step_of_waitRead hw hr ht (hpos.trans hn)
    exact ⟨u, hs.step_eq, hs.rst.trans hr, hs.eng, hwu, by omega, fun _ => hread.trans hb⟩
  · have hone : t.busyRead h = true := hbit (by omega)
    obtain ⟨u, hs, hwu, hpc, hsame⟩ := step_of_waitTest hw hr ht (hpos.trans hn)
    rw [if_pos hone] at hpc
    exact ⟨u, hs.step_eq, hs.rst.trans hr, hs.eng, hwu, by omega, fun _ => hsame.trans hone⟩

theorem runTurns_polling {h : Nat} {s : State} (hp : s.Polling h s.eng 0) (hb : s.eng.busy = true) (n : Nat) :
    ∃ t, runTurns (fun _ => .host) n s = .next t ∧ t.Polling h s.eng n := by
  induction n with
  | zero => exact ⟨s, rfl, hp⟩
  | succ n ih =>
    obtain ⟨t, ht, hr, he, hw, hpos, hbit⟩ := ih
    have hturn : (t.withTurn .host).Polling h s.eng n := ⟨hr, he, hw.congr rfl rfl, hpos, hbit⟩
    obtain ⟨u, hu, hpu⟩ := hturn.step hb rfl
    exact ⟨u, runTurns_next ht hu, hpu⟩

/-- Settles O60: the polling host's run, which has BUSY = 1 for ever and no engine turn. -/
theorem hostMayPollAnyNumberOfTimes : Obligations.HostMayPollAnyNumberOfTimes := by
  intro s h hr hb hv hprog hpc
  have hw : s.HasWait 0 h := State.hasWait_of_take (by rw [hprog]; rfl) hv
  have run := runTurns_polling (h := h) ⟨hr, rfl, hw, hpc, fun h0 => absurd h0 (Nat.lt_irrefl 0)⟩ hb
  refine ⟨fun k hk => ?_, fun hfair => ?_⟩
  · obtain ⟨t, ht, hp⟩ := run (2 * k)
    exact ⟨t, ht, hp.eng, hp.pos.trans (Nat.mul_mod_right 2 k), hp.bit (by omega)⟩
  · obtain ⟨m, _, hm⟩ := hfair 0 fun m _ => by
      obtain ⟨t, ht, hp⟩ := run m
      exact ⟨t, ht, hp.eng ▸ hb⟩
    cases hm

end Sys2Proof.Machine

/-! Proofs of the family of spec/60_exceptions.md: which transactions set ERR (R119), what clears it (R121), and the
two orders in which a DATA write and a completion may come (R124, R137). -/

namespace Sys2Proof.Machine

/-! ### The causes of ERR (R119) -/

theorem Engine.ErrCause.write {e : Engine} {T : TxnWord} (h : e.ErrCause T) : txnWrite T = true := h.1

/-- An offset that is none of CTRL's, DATA's and KEY's is one at which no write is accepted (R37). -/
theorem refused_of_not_writable {off : BitVec 7} (h0 : off ≠ 0) (h : off ∉ [0x10, 0x18, 0x20, 0x28, 0x30, 0x38]) :
    off = 0x08 ∨ 0x40 ≤ off.toNat ∨ off.toNat % 8 ≠ 0 := by
  revert off
  decide

/-- A write at an offset at which none is accepted sets ERR and does nothing else (E3, E4, E5). -/
theorem Engine.regWrite_of_refused {off : BitVec 7} (h : off = 0x08 ∨ 0x40 ≤ off.toNat ∨ off.toNat % 8 ≠ 0)
    (v : Word) (e : Engine) : Engine.regWrite off v e = e.setErr := by
  -- O26 says so of the instruction, from any state around the engine
  have hexec := statusReservedAndMisalignedWrites off v { State.reset with eng := e } h
  exact congrArg State.eng (Host.Outcome.next.inj hexec)

/-- The word CMD = 11 to CTRL while idle: CLR, where it is set, clears DONE, and then ERR is set (E2; R94). -/
theorem Engine.ctrlWrite_reserved {C : Word} {e : Engine} (hidle : e.busy = false) (hc : C.extractLsb' 0 2 = 3) :
    Engine.ctrlWrite C e = { e with err := true, done := if C.getLsbD 2 = true then false else e.done } := by
  rw [Engine.ctrlWrite_of_cmd hidle hc, show C.getLsbD 2 = cmdClr C from rfl]
  cases cmdClr C <;> rfl

/-- ERR after a CTRL write accepted while idle with another CMD than 11: cleared by CLR, and otherwise kept (R90). -/
theorem Engine.ctrlWrite_err {C : Word} {e : Engine} (hidle : e.busy = false) (hc : C.extractLsb' 0 2 ≠ 3) :
    (Engine.ctrlWrite C e).err = if C.getLsbD 2 = true then false else e.err := by
  rw [show C.getLsbD 2 = cmdClr C from rfl]
  rcases Engine.ctrlWrite_cases C hidle with ⟨_, he⟩ | ⟨_, he⟩ | ⟨_, he⟩ | ⟨h3, _⟩
  · rw [he]; cases cmdClr C <;> rfl
  · rw [he]; cases cmdClr C <;> rfl
  · rw [he]; cases cmdClr C <;> rfl
  · exact absurd h3 hc

/-- A cause sets ERR and, but for the DONE that an accepted CLR clears, changes no register (R119, R121). -/
theorem Engine.ErrCause.regWrite {e : Engine} {T : TxnWord} (h : e.ErrCause T) :
    Engine.regWrite (txnOff T) (txnData T) e = { e with
      err := true
      done := if e.busy = false ∧ txnOff T = 0 ∧ (txnData T).getLsbD 2 = true then false else e.done } := by
  obtain ⟨_, hcause⟩ := h
  by_cases hb : e.busy = true
  · rw [regWrite_of_busy _ _ hb, if_neg (by simp [hb])]
    rfl
  · have hidle : e.busy = false := Bool.eq_false_iff.mpr hb
    rcases hcause with hbusy | ⟨hoff, hcmd⟩ | hrefused
    · exact absurd hbusy hb
    · rw [hoff, regWrite_ctrl, ctrlWrite_reserved hidle hcmd]
      simp [hidle]
    · obtain ⟨hne, _⟩ := not_writable_of_refused hrefused
      rw [regWrite_of_refused hrefused, if_neg fun hc => hne hc.2.1]
      rfl

/-- A write to a busy engine is a cause (E1), so one that is none finds the engine idle. -/
theorem Engine.idle_of_not_errCause {e : Engine} {T : TxnWord} (hw : txnWrite T = true) (h : ¬ e.ErrCause T) :
    e.busy = false :=
  Bool.eq_false_iff.mpr fun hb => h ⟨hw, .inl hb⟩

/-- A write that is no cause leaves ERR as it was, unless it is a CTRL write with CLR (R119, R121). -/
theorem Engine.regWrite_err_of_not_errCause {e : Engine} {T : TxnWord} (hw : txnWrite T = true)
    (h : ¬ e.ErrCause T) :
    (Engine.regWrite (txnOff T) (txnData T) e).err =
      if txnOff T = 0 ∧ (txnData T).getLsbD 2 = true then false else e.err := by
  have hidle := idle_of_not_errCause hw h
  rcases regWrite_cases (txnOff T) (txnData T) e with ⟨h0, he⟩ | ⟨_, hc⟩ | ⟨h0, href, _⟩
  · rw [he, ctrlWrite_err hidle fun h3 => h ⟨hw, .inr (.inl ⟨h0, h3⟩)⟩]
    simp [h0]
  · rcases hc with ⟨h0, he⟩ | ⟨h0, he⟩ | ⟨h0, he⟩ | ⟨h0, he⟩ | ⟨h0, he⟩ | ⟨h0, he⟩ <;> rw [he, h0] <;> rfl
  · have hslot := href.resolve_left (by simp [hidle])
    exact absurd ⟨hw, .inr (.inr (refused_of_not_writable h0 hslot))⟩ h

/-! ### Where a step changes ERR (R119, R121) -/

/-- The host's turn issues the next transaction, as an operation of either form. -/
theorem hostTurn_of_nextTxn {s : State} {T : TxnWord} (h : s.nextTxn = some T) :
    s.turn = .host ∧ ∃ d, hostTurn s.takeTurn = issueTxn T d s.takeTurn := by
  unfold State.nextTxn at h
  split at h
  · next d ht hop =>
    cases h
    exact ⟨ht, d, by simp [hostTurn, hostOp, hop]⟩
  · next w a n v d ht hop =>
    refine ⟨ht, d, ?_⟩
    cases hbus : busWord s.unit w a n v with
    | error r => rw [hbus] at h; cases h
    | ok U =>
      rw [hbus] at h
      cases h
      simp [hostTurn, hostOp, hop, hbus]
  · cases h

/-- The step of the next transaction does to the engine what the instruction does. -/
theorem step_eng_of_nextTxn {s t : State} {T : TxnWord} (hr : s.rst = false) (h : step s = .next t)
    (hT : s.nextTxn = some T) : t.eng = engineEffect (decode T) s.eng := by
  obtain ⟨ht, d, hd⟩ := hostTurn_of_nextTxn hT
  rw [step_eq, systemStep_of_released hr, ht, performTurn, hd, issueTxn_eq, mapNext_next,
    State.holdReset_of_released (by exact hr)] at h
  cases h
  rfl

/-- No turn of the engine changes ERR (R97, R98). -/
theorem Engine.turn_err (e : Engine) : e.turn.err = e.err := by
  cases hb : e.busy with
  | true =>
    obtain ⟨_, _, herr, _⟩ := e.engineStep_frame
    rw [turn_of_busy hb, herr]
  | false => rw [turn_of_idle hb]

/-- All a step can do to ERR, with the pin released before it: a reset clears it; a cause sets it; an accepted CLR
clears it; every other step leaves it. -/
theorem step_err_cases {s t : State} (hr : s.rst = false) (h : step s = .next t) :
    (t.rst = true ∧ t.eng.err = false) ∨
    (t.eng.err = true ∧ ∃ T, s.nextTxn = some T ∧ s.eng.ErrCause T) ∨
    (t.eng.err = false ∧ s.eng.busy = false ∧ ∃ T, s.nextTxn = some T ∧ txnWrite T = true ∧ txnOff T = 0 ∧
      (txnData T).getLsbD 2 = true) ∨
    t.eng.err = s.eng.err := by
  rcases systemStep_cases hr h with ⟨hrst, _, he⟩ | ⟨_, _, he⟩ | ⟨_, _, he | ⟨_, T, hT, hw, he⟩⟩
  · exact .inl ⟨hrst, by rw [he]; rfl⟩
  · exact .inr (.inr (.inr (by rw [he, Engine.turn_err])))
  · exact .inr (.inr (.inr (by rw [he])))
  · rw [he]
    by_cases hcause : s.eng.ErrCause T
    · exact .inr (.inl ⟨by rw [hcause.regWrite], T, hT, hcause⟩)
    · rw [Engine.regWrite_err_of_not_errCause hw hcause]
      split
      · next hclr =>
        exact .inr (.inr (.inl ⟨rfl, Engine.idle_of_not_errCause hw hcause, T, hT, hw, hclr⟩))
      · exact .inr (.inr (.inr rfl))

/-- Settles O30: what a transaction does is `Engine.regWrite` of its fields, a cause or none, and what a step does to
ERR is one of the cases of `step_err_cases`. -/
theorem errIsSetByItsCausesOnly : Obligations.ErrIsSetByItsCausesOnly := by
  refine ⟨fun T s t h => ?_, fun s t h hclear hset => ?_, fun s t T hr h hT hcause => ?_⟩
  · rw [exec_decode] at h
    cases hw : txnWrite T with
    | false =>
      rw [hw] at h
      cases h
      have hread : ¬ s.eng.ErrCause T := fun hc => Bool.false_ne_true (hw.symm.trans hc.write)
      exact ⟨fun hc => absurd hc hread, fun _ => by simp, fun _ => hread⟩
    | true =>
      rw [hw] at h
      cases h
      exact ⟨Engine.ErrCause.regWrite, fun hc => by simpa using Engine.regWrite_err_of_not_errCause hw hc,
        fun hr => by cases hr⟩
  · cases hr : s.rst with
    | true =>
      rw [systemStep_of_asserted hr h] at hset
      cases hset
    | false =>
      rcases step_err_cases hr h with ⟨_, herr⟩ | ⟨_, hcause⟩ | ⟨herr, _⟩ | herr
      · exact absurd (herr.symm.trans hset) Bool.false_ne_true
      · exact hcause
      · exact absurd (herr.symm.trans hset) Bool.false_ne_true
      · exact absurd (hclear.symm.trans (herr.symm.trans hset)) Bool.false_ne_true
  · rw [step_eng_of_nextTxn hr h hT, engineEffect_decode, if_pos hcause.write, hcause.regWrite]

/-- Settles O45: of all a step can do to ERR, only a reset and an accepted CLR clear it. -/
theorem errIsSticky : Obligations.ErrIsSticky := by
  intro s t hr h hset hclear
  rcases step_err_cases hr h with ⟨hrst, _⟩ | ⟨herr, _⟩ | ⟨_, hclr⟩ | herr
  · exact .inl hrst
  · exact absurd (hclear.symm.trans herr) Bool.false_ne_true
  · exact .inr hclr
  · exact absurd (hclear.symm.trans (herr.trans hset)) Bool.false_ne_true

/-! ### A completion and a write that meet (R124, R137) -/

/-- The listed turn of a host whose next operation is a register write: the engine takes the write. -/
theorem step_of_listed_write {s : State} {ts : List Turn} {off : BitVec 7} {v : Word} {dst : Option Nat}
    (hr : s.rst = false) (hs : s.schedule = .host :: ts)
    (hp : s.program[s.hostPc]? = some (.issue (txnWord true off v) dst)) :
    ∃ t, step s = .next t ∧ t.rst = false ∧ t.schedule = ts ∧ t.eng = Engine.regWrite off v s.eng := by
  refine ⟨_, systemStep_of_issue hr (State.turn_of_listed hs) hp, hr, ?_, ?_⟩
  · simp [hs]
  · simp [engineEffect_decode]

/-- The turn of the 64th iteration ends with the completion (R98). -/
theorem Engine.turn_of_last {e : Engine} (hb : e.busy = true) (hi : e.iter = 63) :
    e.turn = e.iterate.complete := by
  rw [turn_of_busy hb, engineStep_of_last ((iter_add_one_eq_64_iff _).mpr hi)]

/-- Two steps, one after the other. -/
theorem runSteps_two {s t u : State} (h : step s = .next t) (h' : step t = .next u) :
    runSteps 2 s = .next u := by
  rw [runSteps_succ, h]
  dsimp only
  rw [runSteps_succ, h']
  rfl

/-- Settles O51: both orders, the write after the completion being one to an idle engine and the write before it one
to a busy engine. -/
theorem completionAndWriteMayRace : Obligations.CompletionAndWriteMayRace := by
  intro s v dst ts hr hb hi hp
  constructor
  · have hfirst := step_of_listed_engine (s := { s with schedule := .engine :: .host :: ts }) hr rfl
    obtain ⟨t, hsecond, _, _, he⟩ := step_of_listed_write (s := { s with schedule := .host :: ts, eng := s.eng.turn })
      hr rfl hp
    refine ⟨t, runSteps_two hfirst hsecond, ?_⟩
    have heng : t.eng = { s.eng.iterate.complete with data0 := v } := by
      rw [he, Engine.turn_of_last hb hi, Engine.regWrite_data0, Engine.whenIdle_of_idle _ rfl]
    rw [heng]
    exact ⟨rfl, rfl, rfl, rfl⟩
  · obtain ⟨t, hfirst, hrt, hst, he⟩ :=
      step_of_listed_write (s := { s with schedule := .host :: .engine :: ts }) hr rfl hp
    refine ⟨_, runSteps_two hfirst (step_of_listed_engine hrt hst), ?_⟩
    have heng : t.eng.turn = s.eng.setErr.iterate.complete := by
      rw [he, Engine.regWrite_of_busy _ _ hb, Engine.turn_of_last (e := s.eng.setErr) hb hi]
    rw [heng]
    exact ⟨rfl, rfl, rfl, rfl⟩

end Sys2Proof.Machine

/-! Proofs of the family of spec/70_reset_and_hazards.md: the reset (R132), the boot sequence and the order of its
writes (R135), and when a write is seen (R140). -/

namespace Sys2Proof.Machine

/-! ### Reset (R132) -/

/-- The turn that asserts the pin, whatever the pin's level is before it. -/
theorem step_of_assert {s : State} (ht : s.turn = .rstAssert) : step s = .next (assertReset s.takeTurn) := by
  have hheld : assertReset s.takeTurn.holdReset = assertReset s.takeTurn := by
    cases hr : s.takeTurn.rst with
    | true => rw [State.holdReset_of_asserted hr]; rfl
    | false => rw [State.holdReset_of_released hr]
  rw [step_eq, systemStep, State.turn_holdReset, State.takeTurn_holdReset, ht, performTurn, mapNext_next, hheld,
    State.holdReset_of_asserted (assertReset_rst _)]
  rfl

/-- Settles O49: the asserting turn is `Reset()`, and the reset holds while the pin is asserted. -/
theorem resetClearsTheEngine : Obligations.ResetClearsTheEngine := by
  rintro r rfl
  refine ⟨rfl, fun s ts hs => ?_, fun s t hr h => systemStep_of_asserted hr h⟩
  rw [step_of_assert (State.turn_of_listed hs), State.takeTurn_of_listed hs]
  rfl

/-- Settles O41: the engine at its reset values is sound, and no host variable is listed. -/
theorem resetMeetsTheInvariant : Obligations.ResetMeetsTheInvariant := by
  obtain ⟨hconsistent, honTrack⟩ := Engine.sound_reset
  exact ⟨hconsistent, honTrack, fun _ => rfl, rfl⟩

/-! ### The operand registers (R17 to R19, R59) -/

/-- The engine with its block and key replaced. -/
def Engine.withOperands (p : Word × Word) (k : Key) (e : Engine) : Engine :=
  { e with data0 := p.1, data1 := p.2, key0 := k.k0, key1 := k.k1, key2 := k.k2, key3 := k.k3 }

@[simp] theorem Engine.withOperands_busy (p : Word × Word) (k : Key) (e : Engine) :
    (e.withOperands p k).busy = e.busy := rfl
@[simp] theorem Engine.withOperands_block (p : Word × Word) (k : Key) (e : Engine) :
    (e.withOperands p k).block = p := rfl
@[simp] theorem Engine.withOperands_key (p : Word × Word) (k : Key) (e : Engine) :
    (e.withOperands p k).key = k := rfl
@[simp] theorem Engine.withOperands_withOperands (p p' : Word × Word) (k k' : Key) (e : Engine) :
    (e.withOperands p k).withOperands p' k' = e.withOperands p' k' := rfl

/-- Engines that agree on every operand register have the same block and key. -/
theorem Engine.operands_congr {e e' : Engine} (h : ∀ r off, (r, off) ∈ operandSlots → r e = r e') :
    e.block = e'.block ∧ e.key = e'.key := by
  have hd0 : e.data0 = e'.data0 := h _ 0x10 (by simp [operandSlots])
  have hd1 : e.data1 = e'.data1 := h _ 0x18 (by simp [operandSlots])
  have hk0 : e.key0 = e'.key0 := h _ 0x20 (by simp [operandSlots])
  have hk1 : e.key1 = e'.key1 := h _ 0x28 (by simp [operandSlots])
  have hk2 : e.key2 = e'.key2 := h _ 0x30 (by simp [operandSlots])
  have hk3 : e.key3 = e'.key3 := h _ 0x38 (by simp [operandSlots])
  rw [block, block, key, key, hd0, hd1, hk0, hk1, hk2, hk3]
  exact ⟨rfl, rfl⟩

/-- An accepted DATA or KEY write changes the operands alone (R112, R113). -/
theorem Engine.regWrite_eq_withOperands {off : BitVec 7} (hoff : off ∈ [0x10, 0x18, 0x20, 0x28, 0x30, 0x38])
    (v : Word) {e : Engine} (hidle : e.busy = false) :
    ∃ p k, Engine.regWrite off v e = e.withOperands p k := by
  rcases regWrite_cases off v e with ⟨h0, _⟩ | ⟨_, hc⟩ | ⟨_, href, _⟩
  · rw [h0] at hoff
    exact absurd hoff (by decide)
  · rcases hc with ⟨_, he⟩ | ⟨_, he⟩ | ⟨_, he⟩ | ⟨_, he⟩ | ⟨_, he⟩ | ⟨_, he⟩ <;> rw [he]
    · exact ⟨(v, e.data1), e.key, rfl⟩
    · exact ⟨(e.data0, v), e.key, rfl⟩
    · exact ⟨e.block, { e.key with k0 := v }, rfl⟩
    · exact ⟨e.block, { e.key with k1 := v }, rfl⟩
    · exact ⟨e.block, { e.key with k2 := v }, rfl⟩
    · exact ⟨e.block, { e.key with k3 := v }, rfl⟩
  · exact absurd hoff (href.resolve_left (by simp [hidle]))

/-- Idle writes to two operand slots, in either order: each register holds what its own slot was written, and nothing
beside the registers has changed. -/
theorem Engine.regWrite_comm {a b : BitVec 7} (v w : Word) {e : Engine} (hidle : e.busy = false) (hab : a ≠ b)
    (ha : a ∈ [0x10, 0x18, 0x20, 0x28, 0x30, 0x38]) (hb : b ∈ [0x10, 0x18, 0x20, 0x28, 0x30, 0x38]) :
    regWrite b w (regWrite a v e) = regWrite a v (regWrite b w e) := by
  obtain ⟨pa, ka, hea⟩ := regWrite_eq_withOperands ha v hidle
  obtain ⟨pb, kb, heb⟩ := regWrite_eq_withOperands hb w hidle
  have hidleA : (regWrite a v e).busy = false := by rw [hea, withOperands_busy, hidle]
  have hidleB : (regWrite b w e).busy = false := by rw [heb, withOperands_busy, hidle]
  obtain ⟨p, k, heab⟩ := regWrite_eq_withOperands hb w hidleA
  obtain ⟨p', k', heba⟩ := regWrite_eq_withOperands ha v hidleB
  have same : ∀ r off, (r, off) ∈ operandSlots →
      r (regWrite b w (regWrite a v e)) = r (regWrite a v (regWrite b w e)) := by
    intro r off hr
    simp only [regWrite_operand hr, hidle, hidleA, hidleB, and_true]
    by_cases hoff : a = off
    · rw [if_neg fun h => hab (hoff.trans h.symm), if_pos hoff, if_pos hoff]
    · rw [if_neg hoff, if_neg hoff]
  obtain ⟨hblock, hkey⟩ := operands_congr same
  rw [heab, heba, hea, heb] at hblock hkey ⊢
  simp only [withOperands_withOperands, withOperands_block, withOperands_key] at hblock hkey ⊢
  rw [hblock, hkey]

/-! ### Instructions in a row (R135) -/

@[simp] theorem execAll_nil (s : State) : execAll [] s = .next s := rfl

theorem execAll_cons {i : Instr} {s t : State} (rest : List Instr) (h : exec i s = .next t) :
    execAll (i :: rest) s = execAll rest t := by
  simp only [execAll, h]

/-- Settles O29: the writes change the engine alone, and commute there. -/
theorem idleOperandWritesCommute : Obligations.IdleOperandWritesCommute := by
  intro a b v w s hidle hab ha hb
  refine ⟨{ s with eng := Engine.regWrite b w (Engine.regWrite a v s.eng) }, rfl, ?_⟩
  rw [Engine.regWrite_comm v w hidle hab ha hb]
  rfl

/-- The key and the block written slot by slot while idle: every write is accepted. -/
theorem execAll_writeOperands (k : Key) (p : Word × Word) (rest : List Instr) {s : State}
    (hidle : s.eng.busy = false) :
    execAll (.regWrite 0x20 k.k0 :: .regWrite 0x28 k.k1 :: .regWrite 0x30 k.k2 :: .regWrite 0x38 k.k3 ::
      .regWrite 0x10 p.1 :: .regWrite 0x18 p.2 :: rest) s =
      execAll rest { s with eng := s.eng.withOperands p k } := by
  have stored : ∀ {off v f t} (is : List Instr), Engine.regWrite off v t.eng = Engine.whenIdle f t.eng →
      t.eng.busy = false → execAll (.regWrite off v :: is) t = execAll is { t with eng := f t.eng } :=
    fun is h ht => execAll_cons is (exec_regWrite_of_eq (h.trans (Engine.whenIdle_of_idle _ ht)))
  rw [stored _ (Engine.regWrite_key0 _ _) hidle, stored _ (Engine.regWrite_key1 _ _) (by exact hidle),
    stored _ (Engine.regWrite_key2 _ _) (by exact hidle), stored _ (Engine.regWrite_key3 _ _) (by exact hidle),
    stored _ (Engine.regWrite_data0 _ _) (by exact hidle), stored _ (Engine.regWrite_data1 _ _) (by exact hidle)]
  rfl

/-- The two DATA reads of an idle engine answer its block, one after the other (R106). -/
theorem exec_readBlock (s : State) {e : Engine} {b : Word × Word} (h : e.IdleWith b) :
    ∃ u v, exec (.regRead 0x10 0) { s with eng := e } = .next u ∧
      exec (.regRead 0x18 0) u = .next v ∧ u.rdata = some b.1 ∧ v.rdata = some b.2 := by
  obtain ⟨hfirst, _⟩ := exec_regRead_data (u := { s with eng := e }) h 0
  obtain ⟨_, hsecond⟩ := exec_regRead_data (u := { s with eng := e, rdata := some b.1 }) h 0
  exact ⟨_, _, hfirst, hsecond, rfl, rfl⟩

/-- R135's sequence with the start of either mode: the transform of the block under the key is read back. -/
theorem bootSequence_reads_transform {start : Instr} {m : Mode}
    (hstart : ∀ s : State, s.eng.busy = false → exec start s = .next { s with eng := Engine.start m s.eng })
    (k : Key) (p : Word × Word) {s : State} (hidle : s.eng.busy = false) :
    ∃ t u v, execAll [.regWrite 0x20 k.k0, .regWrite 0x28 k.k1, .regWrite 0x30 k.k2, .regWrite 0x38 k.k3,
        .regWrite 0x10 p.1, .regWrite 0x18 p.2, start] s = .next t ∧
      exec (.regRead 0x10 0) { t with eng := Engine.engineSteps 64 t.eng } = .next u ∧
      exec (.regRead 0x18 0) u = .next v ∧
      u.rdata = some (transform m k p).1 ∧ v.rdata = some (transform m k p).2 := by
  have hstarted := (execAll_writeOperands k p [start] hidle).trans
    (execAll_cons [] (hstart { s with eng := s.eng.withOperands p k } hidle))
  obtain ⟨hblock, hdone, _, _⟩ := engineSteps_start_result m (s.eng.withOperands p k)
  have hresult : (Engine.engineSteps 64 (Engine.start m (s.eng.withOperands p k))).IdleWith (transform m k p) :=
    ⟨hdone, hblock⟩
  obtain ⟨u, v, hreads⟩ := exec_readBlock s hresult
  exact ⟨_, u, v, hstarted, hreads⟩

/-- Settles O39: the sequence with each of the two starts. -/
theorem bootSequenceComputesTheTransform : Obligations.BootSequenceComputesTheTransform := fun k p _ hidle =>
  ⟨bootSequence_reads_transform (fun _ => exec_encrypt_of_idle 0) k p hidle,
    bootSequence_reads_transform (fun _ => exec_decrypt_of_idle 0) k p hidle⟩

/-! ### When a write is seen (R140) -/

/-- After either start an engine that was idle is busy with the block and the key it had (R92, R93). -/
theorem exec_start_of_idle {start : Bool → BitVec 61 → Instr} (hstart : start ∈ [Instr.encrypt, .decrypt])
    (clr : Bool) (g : BitVec 61) {t : State} (hidle : t.eng.busy = false) :
    ∃ u, exec (start clr g) t = .next u ∧ u.eng.y = t.eng.data0 ∧ u.eng.z = t.eng.data1 ∧
      u.eng.key = t.eng.key ∧ u.eng.busy = true := by
  have started : ∀ m, ∃ e, Engine.command clr (Engine.start m) t.eng = e ∧ e.y = t.eng.data0 ∧ e.z = t.eng.data1 ∧
      e.key = t.eng.key ∧ e.busy = true := by
    intro m
    cases clr <;> exact ⟨_, rfl, rfl, rfl, rfl, rfl⟩
  simp only [List.mem_cons, List.not_mem_nil, or_false] at hstart
  rcases hstart with rfl | rfl
  · obtain ⟨e, rfl, he⟩ := started .encrypt
    exact ⟨_, exec_commandInstr_of_idle false true clr g hidle, he⟩
  · obtain ⟨e, rfl, he⟩ := started .decrypt
    exact ⟨_, exec_commandInstr_of_idle true false clr g hidle, he⟩

/-- A STATUS read of a busy engine answers BUSY = 1 (R60). -/
theorem exec_regRead_status_of_busy (wdata : Word) {u : State} (h : u.eng.busy = true) :
    ∃ r, exec (.regRead 0x08 wdata) u = .next { u with rdata := some r } ∧ r.getLsbD 0 = true :=
  ⟨u.eng.statusWord, exec_regRead_status wdata u, (u.eng.statusWord_getLsbD 0).trans h⟩

/-- An accepted KEY write replaces its own word of the key (R113). -/
theorem exec_regWrite_key {off : BitVec 7} {k : Key} {v : Word} {s : State} (hidle : s.eng.busy = false)
    (h : (off, k) ∈ [((0x20 : BitVec 7), { s.eng.key with k0 := v }), (0x28, { s.eng.key with k1 := v }),
      (0x30, { s.eng.key with k2 := v }), (0x38, { s.eng.key with k3 := v })]) :
    exec (.regWrite off v) s = .next { s with eng := s.eng.withOperands s.eng.block k } := by
  obtain ⟨_, _, hk0, hk1, hk2, hk3⟩ := (dataAndKeyWrites v s).1 hidle
  simp only [List.mem_cons, Prod.mk.injEq, List.not_mem_nil, or_false] at h
  rcases h with ⟨rfl, rfl⟩ | ⟨rfl, rfl⟩ | ⟨rfl, rfl⟩ | ⟨rfl, rfl⟩
  · exact hk0
  · exact hk1
  · exact hk2
  · exact hk3

/-- Settles O27: the write stores its word at once, the next start loads what is stored, and the engine it leaves is
busy. -/
theorem writesAreSeenAtOnce : Obligations.WritesAreSeenAtOnce := by
  intro start hstart clr g v wdata s hidle
  obtain ⟨hdata0, hdata1, _⟩ := (dataAndKeyWrites v s).1 hidle
  refine ⟨?_, ?_, fun off k hk => ?_⟩
  · obtain ⟨u, hu, hy, hz, _, hbusy⟩ :=
      exec_start_of_idle hstart clr g (t := { s with eng := { s.eng with data0 := v } }) hidle
    obtain ⟨hread, _⟩ := exec_regRead_data (u := { s with eng := { s.eng with data0 := v } }) ⟨hidle, rfl⟩ wdata
    exact ⟨_, hdata0, hread, u, hu, hy, hz, exec_regRead_status_of_busy wdata hbusy⟩
  · obtain ⟨u, hu, hy, hz, _, hbusy⟩ :=
      exec_start_of_idle hstart clr g (t := { s with eng := { s.eng with data1 := v } }) hidle
    obtain ⟨_, hread⟩ := exec_regRead_data (u := { s with eng := { s.eng with data1 := v } }) ⟨hidle, rfl⟩ wdata
    exact ⟨_, hdata1, hread, u, hu, hy, hz, exec_regRead_status_of_busy wdata hbusy⟩
  · obtain ⟨u, hu, _, _, hkey, hbusy⟩ :=
      exec_start_of_idle hstart clr g (t := { s with eng := s.eng.withOperands s.eng.block k }) hidle
    obtain ⟨_, _, _, hstep⟩ := u.eng.engineStep_frame
    rw [hkey] at hstep
    exact ⟨_, u, exec_regWrite_key hidle hk, rfl, hu, hstep, exec_regRead_status_of_busy wdata hbusy⟩

end Sys2Proof.Machine

/-! Proofs of the statements that the spec derives: its example words (spec/30 section 7), decryption against encryption
and the accumulator (spec/40 section 6), whole operations (spec/41 section 4), what reachable states satisfy (spec/10
section 7), and reads after reset (spec/70 section 1). -/

namespace Sys2Proof.Machine

/-! ### The example words (R66) -/

/-- Settles O4: fifteen closed words, decoded. -/
theorem specExampleWordsDecode : Obligations.SpecExampleWordsDecode := by
  unfold Obligations.SpecExampleWordsDecode
  decide

/-! ### Encryption against decryption (R82, R83) -/

/-- ENC_ITER takes SUM up again, and then the half-rounds of DEC_ITER back, last first (R75, R78). -/
theorem encIter_decIter (k : Key) (w : Working) : encIter k (decIter k w) = w := by
  have hs : (encIter k (decIter k w)).sum = w.sum := by
    rw [encIter_sum, decIter_sum, BitVec.sub_add_cancel]
  have hy : (encIter k (decIter k w)).y = w.y := by
    rw [encIter_y, ← encIter_sum k, hs, decIter_y, BitVec.sub_add_cancel]
  have hz : (encIter k (decIter k w)).z = w.z := by
    rw [encIter_z, hy, ← encIter_sum k, hs, decIter_z, BitVec.sub_add_cancel]
  exact Working.eq_of_fields hy hz hs

/-- Settles O9: a half-round adds or subtracts the same value of F, for it leaves F's operands alone. -/
theorem decIterUndoesEncIter : Obligations.DecIterUndoesEncIter :=
  ⟨fun y z s ka kb => ⟨BitVec.add_sub_cancel y (mix z s ka kb), BitVec.add_sub_cancel z (mix y s ka kb)⟩,
    fun k w => ⟨decIter_encIter k w, encIter_decIter k w⟩⟩

/-- E is injective, for D undoes it, and so a bijection, for there are finitely many blocks (R83). -/
theorem encryptBlock_bijective (k : Key) : Function.Bijective (encryptBlock k) :=
  Finite.injective_iff_bijective.mp (Function.LeftInverse.injective (decryptBlock_encryptBlock k))

/-- Settles O11: D is the left inverse of a bijection, so its right inverse too. -/
theorem decryptInvertsEncrypt : Obligations.DecryptInvertsEncrypt := by
  intro k
  have hleft : Function.LeftInverse (decryptBlock k) (encryptBlock k) := decryptBlock_encryptBlock k
  have hbij := encryptBlock_bijective k
  exact ⟨hleft, hleft.rightInverse_of_surjective hbij.surjective, hbij⟩

/-! ### The accumulator (R81) -/

/-- Settles O10: SUM counts the iterations up from 0 or down from 64, in multiples of DELTA. -/
theorem accumulatorSchedule : Obligations.AccumulatorSchedule := by
  refine ⟨fun k y z i hpos hle => ?_, fun k y z j hpos hle => ?_⟩
  · have hsum : ∀ n, (iterMany .encrypt k n ⟨y, z, 0⟩).sum = BitVec.ofNat 64 n * delta := fun n => by
      rw [iterMany_encrypt_sum, zero_add]
    rw [hsum, hsum, ← mul_delta_succ, Nat.sub_add_cancel hpos]
    exact ⟨rfl, rfl⟩
  · have hsum : ∀ n, n ≤ 64 →
        (iterMany .decrypt k n ⟨y, z, sumDecInit⟩).sum = BitVec.ofNat 64 (64 - n) * delta := fun n hn => by
      rw [iterMany_decrypt_sum, sumDecInit_sub_mul_delta hn]
    rw [hsum (j - 1) (by omega), hsum j hle, show 64 - (j - 1) = 65 - j by omega]
    exact ⟨rfl, rfl⟩

/-- SUM at the end of an operation: 64 times DELTA after an encryption, 0 after a decryption. -/
def sumEnd : Mode → Word
  | .encrypt => sumDecInit
  | .decrypt => 0

theorem iterMany_64_sum (m : Mode) (k : Key) (y z : Word) :
    (iterMany m k 64 ⟨y, z, sumInit m⟩).sum = sumEnd m := by
  obtain ⟨hencrypt, hdecrypt⟩ := accumulatorSchedule
  cases m with
  | encrypt => exact (hencrypt k y z 64 (by decide) le_rfl).2.trans sumDecInit_eq.symm
  | decrypt => exact (hdecrypt k y z 64 (by decide) le_rfl).2

/-! ### An operation from its start on (R92, R93, R97 to R99) -/

/-- The instruction that starts a mode's operation (R92, R93). -/
def Mode.startInstr (clr : Bool) (ignored : BitVec 61) : Mode → Instr
  | .encrypt => .encrypt clr ignored
  | .decrypt => .decrypt clr ignored

/-- While idle it is accepted: the operation starts on the block and the key the engine holds, whatever CLR does. -/
theorem exec_startInstr_of_idle (m : Mode) (clr : Bool) (g : BitVec 61) {s : State} (hidle : s.eng.busy = false) :
    ∃ e, exec (m.startInstr clr g) s = .next { s with eng := Engine.start m e } ∧
      e.key = s.eng.key ∧ e.block = s.eng.block := by
  have hstart : exec (m.startInstr clr g) s =
      .next { s with eng := Engine.start m (if clr then s.eng.clearFlags else s.eng) } := by
    cases m with
    | encrypt => exact exec_commandInstr_of_idle false true clr g hidle
    | decrypt => exact exec_commandInstr_of_idle true false clr g hidle
  refine ⟨_, hstart, ?_⟩
  cases clr <;> exact ⟨rfl, rfl⟩

/-- A start takes 64 engine steps: before the last the engine is busy with its input still in DATA, and after it the
transform of its input stands in DATA, Y and Z. -/
theorem start_takes_64_engineSteps (m : Mode) (clr : Bool) (g : BitVec 61) {s : State}
    (hidle : s.eng.busy = false) :
    ∃ t, exec (m.startInstr clr g) s = .next t ∧
      (∀ n, n < 64 → (Engine.engineSteps n t.eng).busy = true ∧ (Engine.engineSteps n t.eng).done = false ∧
        (Engine.engineSteps n t.eng).iter.toNat = n ∧ (Engine.engineSteps n t.eng).block = s.eng.block) ∧
      Engine.engineSteps 64 t.eng = { t.eng with
        data0 := (transform m s.eng.key s.eng.block).1, data1 := (transform m s.eng.key s.eng.block).2,
        y := (transform m s.eng.key s.eng.block).1, z := (transform m s.eng.key s.eng.block).2,
        sum := sumEnd m, iter := 0, busy := false, done := true } := by
  obtain ⟨e, hexec, hkey, hblock⟩ := exec_startInstr_of_idle m clr g hidle
  refine ⟨_, hexec, fun n hn => ?_, ?_⟩
  · dsimp only
    rw [engineSteps_start m e n hn, ← hblock]
    exact ⟨rfl, rfl, Nat.mod_eq_of_lt (by omega), rfl⟩
  · dsimp only
    rw [engineSteps_start_64, transform_eq, ← hkey, ← hblock, ← iterMany_64_sum m e.key e.data0 e.data1]
    rfl

/-- Settles O36. -/
theorem operationTakes64EngineSteps : Obligations.OperationTakes64EngineSteps := fun clr g _ hidle =>
  ⟨start_takes_64_engineSteps .encrypt clr g hidle, start_takes_64_engineSteps .decrypt clr g hidle⟩

/-- A start is in flight at once, towards the transform of the block and the key it found. -/
theorem Engine.computes_start (m : Mode) (e : Engine) : (Engine.start m e).Computes (transform m e.key e.block) :=
  ⟨sound_start m e, rfl, rfl⟩

/-- Where a run that is busy until its last step stands: in flight towards `r`, completed with `r`, or ended by a
reset. -/
def State.Awaits (r : Word × Word) (s : State) : Prop :=
  (s.rst = false ∧ s.eng.Computes r) ∨ s.eng.Completed r ∨ (s.rst = true ∧ s.eng.busy = false)

/-- A step of an operation in flight, a reset among them. -/
theorem State.Awaits.step {r : Word × Word} {s t : State} (hs : s.Awaits r) (hb : s.eng.busy = true)
    (h : step s = .next t) : t.Awaits r := by
  have hnot : s.eng.busy ≠ false := by simp [hb]
  rcases hs with ⟨hr, hc⟩ | hdone | ⟨_, hidle⟩
  · cases hrt : t.rst with
    | true => exact .inr (.inr ⟨hrt, by rw [step_holds_reset h hrt]; rfl⟩)
    | false =>
      rcases step_of_computes hr hc h with hrst | hdone | ⟨hc', _⟩
      · exact absurd (hrt.symm.trans hrst) (by decide)
      · exact .inr (.inl hdone)
      · exact .inl ⟨hrt, hc'⟩
  · exact absurd hdone.idle hnot
  · exact absurd hidle hnot

/-- An operation in flight whose run is busy until its last step, which ends it with no reset, has then completed. -/
theorem runSteps_completes {r : Word × Word} {n : Nat} {s t : State} (hr : s.rst = false) (hc : s.eng.Computes r)
    (h : runSteps n s = .next t) (hbusy : ∀ m, m < n → ∃ u, runSteps m s = .next u ∧ u.eng.busy = true)
    (hidle : t.eng.busy = false) (hrt : t.rst = false) : t.eng.Completed r := by
  have ht : t.Awaits r := by
    refine runSteps_induction h (.inl ⟨hr, hc⟩) fun m v w hm hv _ hstep hawaits => ?_
    obtain ⟨u, hu, hb⟩ := hbusy m hm
    obtain rfl : v = u := Host.Outcome.next.inj (hv.symm.trans hu)
    exact hawaits.step hb hstep
  rcases ht with ⟨_, hflight⟩ | hdone | ⟨hrst, _⟩
  · exact absurd (hidle.symm.trans hflight.busy) (by decide)
  · exact hdone
  · exact absurd (hrt.symm.trans hrst) (by decide)

/-- Settles O37: the start puts the operation in flight, and the run completes it. -/
theorem resultWhateverIsInterleaved : Obligations.ResultWhateverIsInterleaved := by
  intro clr g s s₁ t n hr hidle hrun hbusy hend hrt
  have result : ∀ m : Mode, exec (m.startInstr clr g) s = .next s₁ →
      t.eng.block = transform m s.eng.key s.eng.block ∧ t.eng.done = true := by
    intro m h
    obtain ⟨e, hexec, hkey, hblock⟩ := exec_startInstr_of_idle m clr g hidle
    obtain ⟨hr₁, heng⟩ : s₁.rst = false ∧ s₁.eng = Engine.start m e := by
      rw [← Host.Outcome.next.inj (hexec.symm.trans h)]
      exact ⟨hr, rfl⟩
    have hflight : s₁.eng.Computes (transform m s.eng.key s.eng.block) := by
      rw [heng, ← hkey, ← hblock]
      exact Engine.computes_start m e
    have hdone := runSteps_completes hr₁ hflight hrun hbusy hend hrt
    exact ⟨hdone.block, hdone.done⟩
  exact ⟨result .encrypt, result .decrypt⟩

/-! ### Reachable states (R33), and reads after reset (R133) -/

/-- Settles O43: reset is sound, and every step keeps it so. -/
theorem reachableStatesAreConsistent : Obligations.ReachableStatesAreConsistent := by
  intro program schedule unit n t hrun
  have hsound : t.eng.Sound :=
    runSteps_induction (P := fun v => v.eng.Sound) hrun Engine.sound_reset fun _ _ _ _ _ _ hstep hv =>
      step_keeps_sound hv hstep
  exact hsound.1

/-- At the reset values STATUS and DATA read as 0, as every other offset always does. -/
theorem Engine.regRead_reset (off : BitVec 7) : Engine.reset.regRead off = 0 := by
  rw [regRead_eq]
  split_ifs <;> rfl

/-- Settles O50. -/
theorem readsAfterResetAnswerZero : Obligations.ReadsAfterResetAnswerZero := by
  intro s off wdata hreset
  have hread : s.eng.regRead off = 0 := by
    rw [hreset]
    exact Engine.regRead_reset off
  refine ⟨?_, by rw [hreset]; rfl, by rw [hreset]; rfl⟩
  rw [← hread]
  exact execRegRead_eq off wdata s

end Sys2Proof.Machine
